-- ==== Sys2Proof/Word.lean ====
section
/-! DEFINITION. The word types of the Chip8pp CHIP-8 core (spec/00_scope.md R8, R9; spec/30_encoding.md R80, R81). -/

namespace Sys2Proof

/-- A byte: a register V0..VF, a timer, a memory cell (R9, R30). Unsigned, wraps modulo 256. -/
abbrev Byte := BitVec 8

/-- A 16-bit value: an instruction word, `pc`, I, a stack entry (R9, R33, R34, R37, R80). -/
abbrev Word := BitVec 16

/-- A nibble field of an instruction word (R13, R81). -/
abbrev Nibble := BitVec 4

/-- The 12-bit immediate address NNN (R81, R83). -/
abbrev Addr12 := BitVec 12

/-- The number of a general register, the value of an X or Y field (R30). -/
abbrev RegIdx := Fin 16

/-- A key code 0x0..0xF (R41, R200). -/
abbrev KeyCode := Fin 16

/-- VF, the register that the flag-writing instructions also write (R32). -/
abbrev regF : RegIdx := 15

/-- Two bytes as one word, the first in the high bits (R9, R64). -/
abbrev hiLo (hi lo : Byte) : Word := hi ++ lo

end Sys2Proof
end

