-- ==== Sys2Proof/Syntax.lean ====
section
/-! DEFINITION. The instruction set: one constructor per row of spec/opcode_table.json
(spec/30_encoding.md R87). -/

namespace Sys2Proof

/-- One constructor per instruction of R87; `x`, `y` name registers, `nn`, `nnn`, `n` are the immediate
fields of R81. In `seReg` and `sneReg` the field `n` is the nibble that dispatch does not examine (R88):
it is kept so that an instruction determines its word, and it has no effect. -/
inductive Instr where
  | cls                                        -- 00E0
  | ret                                        -- 00EE
  | sys (nnn : Addr12)                         -- 0NNN
  | jp (nnn : Addr12)                          -- 1NNN
  | call (nnn : Addr12)                        -- 2NNN
  | seImm (x : RegIdx) (nn : Byte)             -- 3XNN
  | sneImm (x : RegIdx) (nn : Byte)            -- 4XNN
  | seReg (x y : RegIdx) (n : Nibble)          -- 5XY0
  | ldImm (x : RegIdx) (nn : Byte)             -- 6XNN
  | addImm (x : RegIdx) (nn : Byte)            -- 7XNN
  | ldReg (x y : RegIdx)                       -- 8XY0
  | orReg (x y : RegIdx)                       -- 8XY1
  | andReg (x y : RegIdx)                      -- 8XY2
  | xorReg (x y : RegIdx)                      -- 8XY3
  | addReg (x y : RegIdx)                      -- 8XY4
  | subReg (x y : RegIdx)                      -- 8XY5
  | shr (x y : RegIdx)                         -- 8XY6
  | subnReg (x y : RegIdx)                     -- 8XY7
  | shl (x y : RegIdx)                         -- 8XYE
  | sneReg (x y : RegIdx) (n : Nibble)         -- 9XY0
  | ldI (nnn : Addr12)                         -- ANNN
  | jpV0 (nnn : Addr12)                        -- BNNN
  | rnd (x : RegIdx) (nn : Byte)               -- CXNN
  | drw (x y : RegIdx) (n : Nibble)            -- DXYN
  | skp (x : RegIdx)                           -- EX9E
  | sknp (x : RegIdx)                          -- EXA1
  | ldVxDt (x : RegIdx)                        -- FX07
  | ldVxK (x : RegIdx)                         -- FX0A
  | ldDtVx (x : RegIdx)                        -- FX15
  | ldStVx (x : RegIdx)                        -- FX18
  | addIVx (x : RegIdx)                        -- FX1E
  | ldFVx (x : RegIdx)                         -- FX29
  | ldBVx (x : RegIdx)                         -- FX33
  | storeRegs (x : RegIdx)                     -- FX55
  | loadRegs (x : RegIdx)                      -- FX65
  deriving DecidableEq, Repr

end Sys2Proof
end

