-- ==== Sys2Proof/Decode.lean ====
section
/-! DEFINITION. Decode and dispatch of an instruction word, the encoder, and the opcode map
(spec/30_encoding.md R80 to R90). -/

namespace Sys2Proof

/-- The fields of a word (R81). -/
structure Fields where
  opcode : Nibble
  x      : RegIdx
  y      : RegIdx
  n      : Nibble
  nn     : Byte
  nnn    : Addr12
  deriving DecidableEq, Repr

/-- Decode (R81, R82): the fields of a word, total and pure. -/
def fields (w : Word) : Fields :=
  { opcode := w.extractLsb' 12 4
    x      := (w.extractLsb' 8 4).toFin
    y      := (w.extractLsb' 4 4).toFin
    n      := w.extractLsb' 0 4
    nn     := w.extractLsb' 0 8
    nnn    := w.extractLsb' 0 12 }

/-- Why the decoder refuses. `unimplemented` is the spec's `UnimplementedInstruction(word)` (R90);
`truncated` is the answer to fewer than two bytes, which no fetch gives (R80). -/
inductive DecodeReject where
  | unimplemented (word : Word)
  | truncated
  deriving DecidableEq, Repr

/-- Group 8 is selected by N (R88). -/
def dispatchGroup8 (w : Word) (d : Fields) : Except DecodeReject Instr :=
  match d.n.toNat with
  | 0x0 => .ok (.ldReg d.x d.y)
  | 0x1 => .ok (.orReg d.x d.y)
  | 0x2 => .ok (.andReg d.x d.y)
  | 0x3 => .ok (.xorReg d.x d.y)
  | 0x4 => .ok (.addReg d.x d.y)
  | 0x5 => .ok (.subReg d.x d.y)
  | 0x6 => .ok (.shr d.x d.y)
  | 0x7 => .ok (.subnReg d.x d.y)
  | 0xE => .ok (.shl d.x d.y)
  | _ => .error (.unimplemented w)

/-- Group E is selected by NN (R88). -/
def dispatchGroupE (w : Word) (d : Fields) : Except DecodeReject Instr :=
  match d.nn.toNat with
  | 0x9E => .ok (.skp d.x)
  | 0xA1 => .ok (.sknp d.x)
  | _ => .error (.unimplemented w)

/-- Group F is selected by NN (R88). -/
def dispatchGroupF (w : Word) (d : Fields) : Except DecodeReject Instr :=
  match d.nn.toNat with
  | 0x07 => .ok (.ldVxDt d.x)
  | 0x0A => .ok (.ldVxK d.x)
  | 0x15 => .ok (.ldDtVx d.x)
  | 0x18 => .ok (.ldStVx d.x)
  | 0x1E => .ok (.addIVx d.x)
  | 0x29 => .ok (.ldFVx d.x)
  | 0x33 => .ok (.ldBVx d.x)
  | 0x55 => .ok (.storeRegs d.x)
  | 0x65 => .ok (.loadRegs d.x)
  | _ => .error (.unimplemented w)

/-- Group 0 is selected by the full word (R88). -/
def dispatchGroup0 (w : Word) (d : Fields) : Instr :=
  if w = 0x00E0#16 then .cls else if w = 0x00EE#16 then .ret else .sys d.nnn

/-- Dispatch (R88): the instruction a word names, or its refusal (R90). Groups 1 to 7 and 9 to D
have one instruction each and no further field is examined. -/
def dispatch (w : Word) : Except DecodeReject Instr :=
  let d := fields w
  match d.opcode.toNat with
  | 0x0 => .ok (dispatchGroup0 w d)
  | 0x1 => .ok (.jp d.nnn)
  | 0x2 => .ok (.call d.nnn)
  | 0x3 => .ok (.seImm d.x d.nn)
  | 0x4 => .ok (.sneImm d.x d.nn)
  | 0x5 => .ok (.seReg d.x d.y d.n)
  | 0x6 => .ok (.ldImm d.x d.nn)
  | 0x7 => .ok (.addImm d.x d.nn)
  | 0x8 => dispatchGroup8 w d
  | 0x9 => .ok (.sneReg d.x d.y d.n)
  | 0xA => .ok (.ldI d.nnn)
  | 0xB => .ok (.jpV0 d.nnn)
  | 0xC => .ok (.rnd d.x d.nn)
  | 0xD => .ok (.drw d.x d.y d.n)
  | 0xE => dispatchGroupE w d
  | 0xF => dispatchGroupF w d
  | _ => .error (.unimplemented w)  -- no word has an opcode above 0xF

/-- The decoder on bytes: big-endian (R64, R66), two bytes an instruction (R80); answers the
instruction and the bytes after it. -/
def decode : List Byte → Except DecodeReject (Instr × List Byte)
  | hi :: lo :: rest =>
    match dispatch (hiLo hi lo) with
    | .ok instr => .ok (instr, rest)
    | .error e => .error e
  | _ => .error .truncated

/-- A register number as the nibble that names it (R81). -/
def regNibble (r : RegIdx) : Nibble := BitVec.ofFin r

/-- The word `opcode : X : Y : N` (R81). -/
def wordXYN (op : Nibble) (x y : RegIdx) (n : Nibble) : Word := op ++ regNibble x ++ regNibble y ++ n

/-- The word `opcode : X : NN` (R81). -/
def wordXNN (op : Nibble) (x : RegIdx) (nn : Byte) : Word := op ++ regNibble x ++ nn

/-- The word `opcode : NNN` (R81). -/
def wordNNN (op : Nibble) (nnn : Addr12) : Word := op ++ nnn

/-- The encoder, from the patterns of R87. -/
def encode : Instr → Word
  | .cls => 0x00E0#16
  | .ret => 0x00EE#16
  | .sys nnn => wordNNN 0x0 nnn
  | .jp nnn => wordNNN 0x1 nnn
  | .call nnn => wordNNN 0x2 nnn
  | .seImm x nn => wordXNN 0x3 x nn
  | .sneImm x nn => wordXNN 0x4 x nn
  | .seReg x y n => wordXYN 0x5 x y n
  | .ldImm x nn => wordXNN 0x6 x nn
  | .addImm x nn => wordXNN 0x7 x nn
  | .ldReg x y => wordXYN 0x8 x y 0x0
  | .orReg x y => wordXYN 0x8 x y 0x1
  | .andReg x y => wordXYN 0x8 x y 0x2
  | .xorReg x y => wordXYN 0x8 x y 0x3
  | .addReg x y => wordXYN 0x8 x y 0x4
  | .subReg x y => wordXYN 0x8 x y 0x5
  | .shr x y => wordXYN 0x8 x y 0x6
  | .subnReg x y => wordXYN 0x8 x y 0x7
  | .shl x y => wordXYN 0x8 x y 0xE
  | .sneReg x y n => wordXYN 0x9 x y n
  | .ldI nnn => wordNNN 0xA nnn
  | .jpV0 nnn => wordNNN 0xB nnn
  | .rnd x nn => wordXNN 0xC x nn
  | .drw x y n => wordXYN 0xD x y n
  | .skp x => wordXNN 0xE x 0x9E
  | .sknp x => wordXNN 0xE x 0xA1
  | .ldVxDt x => wordXNN 0xF x 0x07
  | .ldVxK x => wordXNN 0xF x 0x0A
  | .ldDtVx x => wordXNN 0xF x 0x15
  | .ldStVx x => wordXNN 0xF x 0x18
  | .addIVx x => wordXNN 0xF x 0x1E
  | .ldFVx x => wordXNN 0xF x 0x29
  | .ldBVx x => wordXNN 0xF x 0x33
  | .storeRegs x => wordXNN 0xF x 0x55
  | .loadRegs x => wordXNN 0xF x 0x65

/-- A word's two bytes as memory and the program file hold them: high byte first (R66). -/
def wordBytes (w : Word) : List Byte := [w.extractLsb' 8 8, w.extractLsb' 0 8]

/-- A row of the opcode map: a word belongs to it when its bits under `mask` are `value`. -/
structure OpcodeRow where
  mask  : Word
  value : Word
  deriving DecidableEq, Repr

/-- Does a word match a row? -/
def OpcodeRow.covers (r : OpcodeRow) (w : Word) : Bool := w &&& r.mask == r.value

/-- The opcode map's row of an instruction: the columns "mask" and "match" of R87. -/
def opcodeRow : Instr → OpcodeRow
  | .cls => ⟨0xFFFF#16, 0x00E0#16⟩
  | .ret => ⟨0xFFFF#16, 0x00EE#16⟩
  | .sys _ => ⟨0xF000#16, 0x0000#16⟩
  | .jp _ => ⟨0xF000#16, 0x1000#16⟩
  | .call _ => ⟨0xF000#16, 0x2000#16⟩
  | .seImm _ _ => ⟨0xF000#16, 0x3000#16⟩
  | .sneImm _ _ => ⟨0xF000#16, 0x4000#16⟩
  | .seReg _ _ _ => ⟨0xF000#16, 0x5000#16⟩
  | .ldImm _ _ => ⟨0xF000#16, 0x6000#16⟩
  | .addImm _ _ => ⟨0xF000#16, 0x7000#16⟩
  | .ldReg _ _ => ⟨0xF00F#16, 0x8000#16⟩
  | .orReg _ _ => ⟨0xF00F#16, 0x8001#16⟩
  | .andReg _ _ => ⟨0xF00F#16, 0x8002#16⟩
  | .xorReg _ _ => ⟨0xF00F#16, 0x8003#16⟩
  | .addReg _ _ => ⟨0xF00F#16, 0x8004#16⟩
  | .subReg _ _ => ⟨0xF00F#16, 0x8005#16⟩
  | .shr _ _ => ⟨0xF00F#16, 0x8006#16⟩
  | .subnReg _ _ => ⟨0xF00F#16, 0x8007#16⟩
  | .shl _ _ => ⟨0xF00F#16, 0x800E#16⟩
  | .sneReg _ _ _ => ⟨0xF000#16, 0x9000#16⟩
  | .ldI _ => ⟨0xF000#16, 0xA000#16⟩
  | .jpV0 _ => ⟨0xF000#16, 0xB000#16⟩
  | .rnd _ _ => ⟨0xF000#16, 0xC000#16⟩
  | .drw _ _ _ => ⟨0xF000#16, 0xD000#16⟩
  | .skp _ => ⟨0xF0FF#16, 0xE09E#16⟩
  | .sknp _ => ⟨0xF0FF#16, 0xE0A1#16⟩
  | .ldVxDt _ => ⟨0xF0FF#16, 0xF007#16⟩
  | .ldVxK _ => ⟨0xF0FF#16, 0xF00A#16⟩
  | .ldDtVx _ => ⟨0xF0FF#16, 0xF015#16⟩
  | .ldStVx _ => ⟨0xF0FF#16, 0xF018#16⟩
  | .addIVx _ => ⟨0xF0FF#16, 0xF01E#16⟩
  | .ldFVx _ => ⟨0xF0FF#16, 0xF029#16⟩
  | .ldBVx _ => ⟨0xF0FF#16, 0xF033#16⟩
  | .storeRegs _ => ⟨0xF0FF#16, 0xF055#16⟩
  | .loadRegs _ => ⟨0xF0FF#16, 0xF065#16⟩

/-- The instruction word that the host's pair (number of bits, value) stands for: every instruction is
one 16-bit word (R80), so it is the low 16 bits, the bits above `nbits` zero. -/
def tableWord (nbits w : Nat) : Word := BitVec.ofNat 16 (w % 2 ^ nbits)

/-- What the decoder reads from the word's bytes, laid out high byte first (R66). -/
def decodeTableWord (nbits w : Nat) : Option Instr :=
  match decode (wordBytes (tableWord nbits w)) with
  | .ok (instr, _) => some instr
  | .error _ => none

end Sys2Proof
end

