-- ==== Sys2Proof/Config.lean ====
section
/-! DEFINITION. What an implementation fixes: the architectural constants and the parameters of
spec/00_scope.md R5, and the free values (draws) of R6. -/

namespace Sys2Proof

/-- `MEM_SIZE` (R5): addresses 0..4095. -/
abbrev MEM_SIZE : Nat := 4096
/-- `PROG_BASE` (R5): where `load` writes. -/
abbrev PROG_BASE : Nat := 0x200
/-- `PROG_MAX` (R5): the longest program `load` accepts. -/
abbrev PROG_MAX : Nat := 3584
/-- `STACK_DEPTH` (R5). -/
abbrev STACK_DEPTH : Nat := 16
/-- `DISP_W` (R5). -/
abbrev DISP_W : Nat := 64
/-- `DISP_H` (R5). -/
abbrev DISP_H : Nat := 32
/-- `FONT_SIZE` (R5): 16 glyphs of 5 bytes. -/
abbrev FONT_SIZE : Nat := 80

/-- `SHIFT_SOURCE` (R5, R150, R151; log 5): the register `8XY6` and `8XYE` shift. -/
inductive ShiftSource where
  | vy
  | vx
  deriving DecidableEq, Repr

/-- `VF_ORDER` (R5, R146; log 6): which of the two writes of a flag-writing instruction comes last. -/
inductive VfOrder where
  | docOrder
  | flagLast
  deriving DecidableEq, Repr

/-- `LOADSTORE_I` (R5, R243, R244; log 7): whether `FX55` and `FX65` advance I. -/
inductive LoadStoreI where
  | unchanged
  | increment
  deriving DecidableEq, Repr

/-- The implementation parameters of R5, fixed at construction (log 1). The type of `fontBase` is the
constraint `FONT_BASE + 80 <= 0x200`. -/
structure Params where
  fontBase    : Fin 433
  fontData    : Vector Byte 80
  entryPc     : Word
  shiftSource : ShiftSource
  vfOrder     : VfOrder
  loadStoreI  : LoadStoreI
  deriving DecidableEq, Repr

/-- FREE VALUE (R6, R172; log 8): the random byte that the draw number `n` of a run takes. -/
opaque Config.randomByte : Nat → Byte

/-- FREE VALUE (R6, R200; log 9): the answer of the key probe for a register value above 15. -/
opaque Config.keyProbe : Nat → Bool

/-- FREE VALUE (R6, R206; log 10): picks, by its remainder, the member of the set of latched keys that
completes a wait. -/
opaque Config.keyPick : Nat → Nat

end Sys2Proof
end

