-- ==== Sys2Proof/Machine/Defaults.lean ====
section
/-! DEFINITION. The spec's default values of the implementation parameters (spec/00_scope.md R5) and the
reset contents of memory (spec/70_reset_and_hazards.md R331). -/

namespace Sys2Proof.Machine

/-- Glyphs 0 to 7 of the default font, top row first (R332, log 3). -/
def defaultFontLow : List Byte :=
  [0xF0, 0x90, 0x90, 0x90, 0xF0,  0x20, 0x60, 0x20, 0x20, 0x70,
   0xF0, 0x10, 0xF0, 0x80, 0xF0,  0xF0, 0x10, 0xF0, 0x10, 0xF0,
   0x90, 0x90, 0xF0, 0x10, 0x10,  0xF0, 0x80, 0xF0, 0x10, 0xF0,
   0xF0, 0x80, 0xF0, 0x90, 0xF0,  0xF0, 0x10, 0x20, 0x40, 0x40]

/-- Glyphs 8 to F of the default font, top row first (R332, log 3). -/
def defaultFontHigh : List Byte :=
  [0xF0, 0x90, 0xF0, 0x90, 0xF0,  0xF0, 0x90, 0xF0, 0x10, 0xF0,
   0xF0, 0x90, 0xF0, 0x90, 0x90,  0xE0, 0x90, 0xE0, 0x90, 0xE0,
   0xF0, 0x80, 0x80, 0x80, 0xF0,  0xE0, 0x90, 0x90, 0x90, 0xE0,
   0xF0, 0x80, 0xF0, 0x80, 0xF0,  0xF0, 0x80, 0xF0, 0x80, 0x80]

/-- The default `FONT_DATA` (R332, D2; log 3). -/
def defaultFontData : Vector Byte 80 := ⟨(defaultFontLow ++ defaultFontHigh).toArray, rfl⟩

/-- The defaults of R5: `FONT_BASE` 0x050 (log 2), `FONT_DATA` (log 3), `ENTRY_PC` 0x200 (log 4),
`SHIFT_SOURCE` VY (log 5), `VF_ORDER` DOC_ORDER (log 6), `LOADSTORE_I` UNCHANGED (log 7). -/
def defaultParams : Params :=
  { fontBase := 0x050, fontData := defaultFontData, entryPc := 0x200#16
    shiftSource := .vy, vfOrder := .docOrder, loadStoreI := .unchanged }

/-- The byte at `a` after construction (R331): the font table at `[FONT_BASE, FONT_BASE + 80)`, zero
everywhere else. It is what an address that memory does not list reads as (log 25). -/
def resetByte (p : Params) (a : Nat) : Byte :=
  if p.fontBase.val ≤ a ∧ a < p.fontBase.val + FONT_SIZE then
    p.fontData.toList.getD (a - p.fontBase.val) 0
  else 0

end Sys2Proof.Machine
end

