-- ==== Sys2Proof/Machine/State.lean ====
section
/-! DEFINITION. The architectural state (spec/10_state.md), the faults (spec/60_exceptions.md), and the
state after construction (spec/70_reset_and_hazards.md R330, R331). -/

namespace Sys2Proof.Machine

/-- What a failing call answers beside an unchanged state. No step ends so: a fault raised by `step()`
is entered as a next state (R302, log 15). -/
inductive Fault where
  /-- `ProgramTooLarge(len)` (R300, R335): raised by `load` alone, when the program is longer than 3584
  bytes; nothing is written and the mode does not change (R307). Safe: the call has no other effect. -/
  | programTooLarge (len : Nat)
  deriving DecidableEq, Repr

/-- Why the model gives no meaning. -/
inductive Refusal where
  /-- Raised by an arm of `exec` whose instruction has no meaning yet; no arm does so in this model.
  Safe: the machine stops. -/
  | notModelled (mnemonic : String)
  deriving DecidableEq, Repr

/-- The two stack faults (R38). -/
inductive StackReason where
  | overflow
  | underflow
  deriving DecidableEq, Repr

/-- The faults that a step raises, each with the detail that R301 records. -/
inductive FaultKind where
  /-- An address above 4095: fetch, `DXYN`, `FX33`, `FX55`, `FX65`; the lowest such address. -/
  | memoryFault (addr : Nat)
  /-- `2NNN` at depth 16 (overflow), `00EE` at depth 0 (underflow). -/
  | stackFault (reason : StackReason)
  /-- Dispatch of an illegal word (R90). -/
  | unimplementedInstruction (word : Word)
  deriving DecidableEq, Repr

/-- The spec's numbers for the kinds of step-time fault (R301, D35). -/
def FaultKind.code : FaultKind → Nat
  | .memoryFault _ => 1
  | .stackFault _ => 2
  | .unimplementedInstruction _ => 3

/-- The spec's number for the load-time fault (R301, D35). -/
def Fault.code : Fault → Nat
  | .programTooLarge _ => 4

/-- The fault record (R43): the kind, the `pc` of the faulting step, the raw word unless the fetch
itself faulted. -/
structure FaultRecord where
  kind : FaultKind
  pc   : Word
  word : Option Word
  deriving DecidableEq, Repr

/-- The execution mode (R42). -/
inductive Mode where
  | running
  | waitingForKey (t : RegIdx)
  | faulted
  deriving DecidableEq, Repr

/-- The display buffer, `disp[x][y]`: 64 columns of 32 rows (R40). -/
abbrev Display := Vector (Vector Bool 32) 64

/-- The register file V0..VF (R30). -/
abbrev RegFile := Vector Byte 16

/-- One boolean for each of the 16 key codes (R41). -/
abbrev KeyVector := Vector Bool 16

/-- The complete state of the block: the tuple of spec/10_state.md, with two fields of the model's own,
`params` (log 1) and `draws` (log 8). -/
structure State where
  /-- Model's own: the parameters fixed at construction (R5). -/
  params : Params
  /-- Memory (R60): the cells that differ from `resetByte`, addresses strictly rising. -/
  mem    : List Host.Cell
  /-- V0..VF (R30, R32). -/
  v      : RegFile
  /-- The index register I (R33). -/
  idx    : Word
  /-- The program counter (R34). -/
  pc     : Word
  /-- The call stack, `stack[0]` first, top last; SP is its length (R37). -/
  stack  : List Word
  /-- The delay timer DT (R39). -/
  dt     : Byte
  /-- The sound timer ST (R39). -/
  st     : Byte
  /-- The display buffer (R40). -/
  disp   : Display
  /-- Which keys are pressed (R41). -/
  keys   : KeyVector
  /-- Which keys made a press edge since the last poll (R41). -/
  edge   : KeyVector
  /-- The execution mode (R42). -/
  mode   : Mode
  /-- The fault record (R43). -/
  fault  : Option FaultRecord
  /-- Model's own: how many free values have been drawn (R6). -/
  draws  : Nat
  deriving DecidableEq, Repr

/-- Construction of a machine with the given parameters (R330, R331). -/
def State.construct (p : Params) : State :=
  { params := p
    mem    := []
    v      := Vector.replicate 16 0
    idx    := 0
    pc     := p.entryPc
    stack  := []
    dt     := 0
    st     := 0
    disp   := Vector.replicate 64 (Vector.replicate 32 false)
    keys   := Vector.replicate 16 false
    edge   := Vector.replicate 16 false
    mode   := .running
    fault  := none
    draws  := 0 }

/-- The machine right after reset: construction with the default parameters (R331, R5). -/
def State.reset : State := State.construct defaultParams

end Sys2Proof.Machine
end

