-- ==== Sys2Proof/Machine/Ops.lean ====
section
/-! DEFINITION. The named operations over memory, registers, stack, display and key state, fetch, and
taking a fault (spec/10_state.md, spec/20_memory.md, spec/60_exceptions.md). -/

namespace Sys2Proof.Machine

/-! ### Memory -/

/-- The byte that a memory holds at an address. -/
def Memory.read (p : Params) (m : List Host.Cell) (a : Nat) : Byte :=
  (m.lookup a).getD (resetByte p a)

/-- Put a cell at its place in a list of rising addresses. -/
def Memory.insert (c : Host.Cell) : List Host.Cell → List Host.Cell
  | [] => [c]
  | d :: rest => if c.1 < d.1 then c :: d :: rest else d :: Memory.insert c rest

/-- Write a byte, keeping the canonical form: the address is listed exactly when its byte is not the
one that an unlisted address reads as. -/
def Memory.write (p : Params) (m : List Host.Cell) (a : Nat) (b : Byte) : List Host.Cell :=
  let others := m.filter fun c => c.1 != a
  if b = resetByte p a then others else Memory.insert (a, b) others

/-- The canonical form: addresses strictly rising, each in 0..4095 (R60), no cell equal to what an
unlisted address reads as. -/
def Memory.wf (p : Params) (m : List Host.Cell) : Bool :=
  decide (m.Pairwise fun c d => c.1 < d.1) &&
    m.all fun c => decide (c.1 < MEM_SIZE) && c.2 != resetByte p c.1

/-- The model's read of one byte: `mem[a]`. -/
def State.byteAt (s : State) (a : Nat) : Byte := Memory.read s.params s.mem a

/-- `mem[a] <- b`, with no bound check. -/
def State.poke (s : State) (a : Nat) (b : Byte) : State :=
  { s with mem := Memory.write s.params s.mem a b }

/-- `MemRead(addr, 1)` (R61). -/
def memRead (a : Nat) (s : State) : Except FaultKind Byte :=
  if a < MEM_SIZE then .ok (s.byteAt a) else .error (.memoryFault a)

/-- `MemWrite(addr, 1, v)` (R62): every address 0..4095 is writable. -/
def memWrite (a : Nat) (b : Byte) (s : State) : Except FaultKind State :=
  if a < MEM_SIZE then .ok (s.poke a b) else .error (.memoryFault a)

/-- The `n` bytes at `a`, `a+1`, …; addresses are exact (R63), the lowest one out of range is reported
(R301). -/
def loadBytes (a : Nat) : Nat → State → Except FaultKind (List Byte)
  | 0, _ => .ok []
  | n + 1, s =>
    match memRead a s with
    | .error k => .error k
    | .ok b =>
      match loadBytes (a + 1) n s with
      | .error k => .error k
      | .ok bs => .ok (b :: bs)

/-- Write bytes at `a`, `a+1`, …; addresses are exact (R63), the lowest one out of range is reported
(R301), and then no written state is answered (R305). -/
def storeBytes (a : Nat) : List Byte → State → Except FaultKind State
  | [], s => .ok s
  | b :: bs, s =>
    match memWrite a b s with
    | .error k => .error k
    | .ok t => storeBytes (a + 1) bs t

/-- The state with bytes written at `a`, `a+1`, …, with no bound check. -/
def State.pokeAll (s : State) (a : Nat) : List Byte → State
  | [] => s
  | b :: bs => (s.poke a b).pokeAll (a + 1) bs

/-! ### Registers, program counter, stack -/

/-- `V[r]` (R30): no register is hard-wired. -/
def State.reg (s : State) (r : RegIdx) : Byte := s.v.get r

/-- `V[r] <- b`. -/
def State.setReg (s : State) (r : RegIdx) (b : Byte) : State := { s with v := s.v.set r.val b r.isLt }

/-- `V[k] <- bs[k]` for every k below the length of `bs` (R244). -/
def State.setRegs (s : State) (bs : List Byte) : State :=
  { s with v := Vector.ofFn fun k : RegIdx => bs.getD k.val (s.reg k) }

/-- `I <- w`. -/
def State.setIdx (s : State) (w : Word) : State := { s with idx := w }

/-- `pc <- w`. -/
def State.setPc (s : State) (w : Word) : State := { s with pc := w }

/-- The default delta, `pc <- pc + 2` (R86). -/
def State.advance (s : State) : State := s.setPc (s.pc + 2)

/-- `pc <- pc + 4` when the condition holds, else `pc <- pc + 2` (R86). -/
def State.skipIf (s : State) (c : Bool) : State := s.setPc (if c then s.pc + 4 else s.pc + 2)

/-- SP, the depth of the call stack (R37). -/
def State.sp (s : State) : Nat := s.stack.length

/-- `Push(v)` (R38). -/
def push (w : Word) (s : State) : Except FaultKind State :=
  if s.sp < STACK_DEPTH then .ok { s with stack := s.stack ++ [w] } else .error (.stackFault .overflow)

/-- `Pop()` (R38): the top and the state without it. -/
def pop (s : State) : Except FaultKind (Word × State) :=
  match s.stack.getLast? with
  | none => .error (.stackFault .underflow)
  | some w => .ok (w, { s with stack := s.stack.dropLast })

/-! ### Display, timers, keys, mode -/

/-- `disp[x][y]`; false outside the 64 by 32 grid, which no rule reads. -/
def Display.pixel (d : Display) (x y : Nat) : Bool :=
  if h : x < 64 ∧ y < 32 then (d[x]'h.1)[y]'h.2 else false

/-- `disp[x][y] <- not disp[x][y]`. -/
def Display.toggle (d : Display) (x y : Nat) : Display :=
  if h : x < 64 ∧ y < 32 then d.set x ((d[x]'h.1).set y (!d.pixel x y) h.2) h.1 else d

/-- The display with every pixel false. -/
def Display.clear : Display := Vector.replicate 64 (Vector.replicate 32 false)

/-- Replace the display. -/
def State.setDisp (s : State) (d : Display) : State := { s with disp := d }

/-- `DT <- b`. -/
def State.setDt (s : State) (b : Byte) : State := { s with dt := b }

/-- `ST <- b`. -/
def State.setSt (s : State) (b : Byte) : State := { s with st := b }

/-- `edge[k] <- false` for every k. -/
def State.clearEdges (s : State) : State := { s with edge := Vector.replicate 16 false }

/-- `mode <- m`. -/
def State.setMode (s : State) (m : Mode) : State := { s with mode := m }

/-- One free value has been drawn (R6, log 8). -/
def State.countDraw (s : State) : State := { s with draws := s.draws + 1 }

/-! ### Fetch -/

/-- `Fetch()` (R64, R65): the two bytes at `pc` and `pc + 1`, high byte first. -/
def fetch (s : State) : Except FaultKind Word :=
  match memRead s.pc.toNat s with
  | .error k => .error k
  | .ok hi =>
    match memRead (s.pc.toNat + 1) s with
    | .error k => .error k
    | .ok lo => .ok (hiLo hi lo)

/-! ### Taking a fault -/

/-- Fault entry (R302): `fault <- (k, pc, word or none)`, `mode <- Faulted`, and nothing else. There is
no return from a fault (R306). -/
def State.enterFault (s : State) (k : FaultKind) (word : Option Word) : State :=
  { s with mode := .faulted, fault := some ⟨k, s.pc, word⟩ }

/-- The end of an instruction's execution: its new state, or entry of the fault it raised from the
state the instruction began in, so that a faulting instruction writes nothing else (R302, R305). -/
def complete (instr : Instr) (s : State) (r : Except FaultKind State) : Host.Outcome State Fault Refusal :=
  match r with
  | .ok t => .next t
  | .error k => .next (s.enterFault k (some (encode instr)))

/-- A fetch that faults (R65, R302): no word is recorded. -/
def fetchFault (k : FaultKind) (s : State) : Host.Outcome State Fault Refusal := .next (s.enterFault k none)

/-- A word that dispatch refuses (R90, R302). -/
def illegalWord (w : Word) (s : State) : Host.Outcome State Fault Refusal :=
  .next (s.enterFault (.unimplementedInstruction w) (some w))

/-- A step in mode Faulted changes no state (R306). -/
def stepFaulted (s : State) : Host.Outcome State Fault Refusal := .next s

end Sys2Proof.Machine
end

