-- ==== Sys2Proof/Machine/Operands.lean ====
section
/-! DEFINITION. Operand forms (spec/30_encoding.md R83, R84). Every operand is read from the state in
which the instruction begins (R89, log 12). -/

namespace Sys2Proof.Machine

/-- `zext_16(NNN)` (R83). -/
def zext16 (nnn : Addr12) : Word := nnn.setWidth 16

/-- The source of a shift (R150, R151): `V[Y]` or `V[X]`, by `SHIFT_SOURCE`. -/
def shiftOperand (x y : RegIdx) (s : State) : Byte :=
  match s.params.shiftSource with
  | .vy => s.reg y
  | .vx => s.reg x

/-- The values of the register range V0..V[X] inclusive (R84). -/
def regRange (x : RegIdx) (s : State) : List Byte := s.v.toList.take (x.val + 1)

/-- The address of a memory operand: I, as an exact number (R63). -/
def memOperand (s : State) : Nat := s.idx.toNat

/-- The value I takes after `FX55` or `FX65`, by `LOADSTORE_I` (R243, R244). -/
def idxAfterRange (x : RegIdx) (s : State) : Word :=
  match s.params.loadStoreI with
  | .unchanged => s.idx
  | .increment => BitVec.ofNat 16 (s.idx.toNat + x.val + 1)

/-- The three decimal digits of a byte, hundreds first (R242). -/
def bcdDigits (b : Byte) : List Byte :=
  [BitVec.ofNat 8 (b.toNat / 100), BitVec.ofNat 8 (b.toNat / 10 % 10), BitVec.ofNat 8 (b.toNat % 10)]

/-- The address of the glyph of a digit (R241): exact, no mask. -/
def glyphAddress (b : Byte) (s : State) : Word := BitVec.ofNat 16 (s.params.fontBase.val + 5 * b.toNat)

/-- The origin of a draw, column and row (R180): `(VX mod 64, VY mod 32)`. -/
def drawOrigin (x y : RegIdx) (s : State) : Nat × Nat :=
  ((s.reg x).toNat % DISP_W, (s.reg y).toNat % DISP_H)

/-- The number of rows a draw reads (R180): rows at or below the bottom edge are never read. -/
def drawRowCount (y : RegIdx) (n : Nibble) (s : State) : Nat :=
  min n.toNat (DISP_H - (s.reg y).toNat % DISP_H)

/-- The key codes with a latched press edge, lowest first (the set E of R206). -/
def latchedKeys (s : State) : List KeyCode := (List.finRange 16).filter fun k => s.edge.get k

end Sys2Proof.Machine
end

