-- ==== Sys2Proof/Machine/Flags.lean ====
section
/-! DEFINITION. The flags that go to VF, and the order of the result write and the flag write
(spec/10_state.md R32, spec/42_register_alu.md R146 to R152). -/

namespace Sys2Proof.Machine

/-- A one-bit flag as the byte VF takes. -/
def flagByte (f : Bool) : Byte := if f then 1 else 0

/-- Carry (R147): the exact sum exceeds 255. -/
def carryFlag (a b : Byte) : Bool := decide (a.toNat + b.toNat > 255)

/-- The flag of a subtraction `a - b` (R148, R149): a is strictly greater than b. -/
def greaterFlag (a b : Byte) : Bool := decide (a.toNat > b.toNat)

/-- The bit a right shift moves out (R150): bit 0. -/
def shiftedOutRight (a : Byte) : Bool := a.getLsbD 0

/-- The bit a left shift moves out (R151): bit 7. -/
def shiftedOutLeft (a : Byte) : Bool := a.getLsbD 7

/-- `V[X] <- r` then `VF <- f`: the flag survives when X = 0xF. -/
def resultThenFlag (x : RegIdx) (r : Byte) (f : Bool) (s : State) : State :=
  (s.setReg x r).setReg regF (flagByte f)

/-- `VF <- f` then `V[X] <- r`: the result survives when X = 0xF. -/
def flagThenResult (x : RegIdx) (r : Byte) (f : Bool) (s : State) : State :=
  (s.setReg regF (flagByte f)).setReg x r

/-- `WriteResultAndFlag` of `8XY4` (the table of R146): the flag comes last under both settings. -/
def writeSumAndFlag (x : RegIdx) (r : Byte) (f : Bool) (s : State) : State :=
  match s.params.vfOrder with
  | .docOrder => resultThenFlag x r f s
  | .flagLast => resultThenFlag x r f s

/-- `WriteResultAndFlag` of `8XY5`, `8XY7`, `8XY6` and `8XYE` (the table of R146). -/
def writeResultAndFlag (x : RegIdx) (r : Byte) (f : Bool) (s : State) : State :=
  match s.params.vfOrder with
  | .docOrder => flagThenResult x r f s
  | .flagLast => resultThenFlag x r f s

end Sys2Proof.Machine
end

