-- ==== Sys2Proof/Machine/Alu.lean ====
section
/-! DEFINITION. Register loads, arithmetic, logic and shifts (spec/42_register_alu.md). -/

namespace Sys2Proof.Machine

/-- `6XNN` LD VX, NN (R140). -/
def execLdImm (x : RegIdx) (nn : Byte) (s : State) : Host.Outcome State Fault Refusal :=
  .next (s.setReg x nn).advance

/-- `7XNN` ADD VX, NN (R141): wraps, no carry. -/
def execAddImm (x : RegIdx) (nn : Byte) (s : State) : Host.Outcome State Fault Refusal :=
  .next (s.setReg x (s.reg x + nn)).advance

/-- `8XY0` LD VX, VY (R142). -/
def execLdReg (x y : RegIdx) (s : State) : Host.Outcome State Fault Refusal :=
  .next (s.setReg x (s.reg y)).advance

/-- `8XY1` OR VX, VY (R143). -/
def execOrReg (x y : RegIdx) (s : State) : Host.Outcome State Fault Refusal :=
  .next (s.setReg x (s.reg x ||| s.reg y)).advance

/-- `8XY2` AND VX, VY (R144). -/
def execAndReg (x y : RegIdx) (s : State) : Host.Outcome State Fault Refusal :=
  .next (s.setReg x (s.reg x &&& s.reg y)).advance

/-- `8XY3` XOR VX, VY (R145). -/
def execXorReg (x y : RegIdx) (s : State) : Host.Outcome State Fault Refusal :=
  .next (s.setReg x (s.reg x ^^^ s.reg y)).advance

/-- `8XY4` ADD VX, VY (R147). -/
def execAddReg (x y : RegIdx) (s : State) : Host.Outcome State Fault Refusal :=
  .next (writeSumAndFlag x (s.reg x + s.reg y) (carryFlag (s.reg x) (s.reg y)) s).advance

/-- `8XY5` SUB VX, VY (R148). -/
def execSubReg (x y : RegIdx) (s : State) : Host.Outcome State Fault Refusal :=
  .next (writeResultAndFlag x (s.reg x - s.reg y) (greaterFlag (s.reg x) (s.reg y)) s).advance

/-- `8XY7` SUBN VX, VY (R149). -/
def execSubnReg (x y : RegIdx) (s : State) : Host.Outcome State Fault Refusal :=
  .next (writeResultAndFlag x (s.reg y - s.reg x) (greaterFlag (s.reg y) (s.reg x)) s).advance

/-- `8XY6` SHR VX, VY (R150): the source is `SHIFT_SOURCE`. -/
def execShr (x y : RegIdx) (s : State) : Host.Outcome State Fault Refusal :=
  .next (writeResultAndFlag x (shiftOperand x y s >>> 1) (shiftedOutRight (shiftOperand x y s)) s).advance

/-- `8XYE` SHL VX, VY (R151): the source is `SHIFT_SOURCE`. -/
def execShl (x y : RegIdx) (s : State) : Host.Outcome State Fault Refusal :=
  .next (writeResultAndFlag x (shiftOperand x y s <<< 1) (shiftedOutLeft (shiftOperand x y s)) s).advance

end Sys2Proof.Machine
end

