-- ==== Sys2Proof/Machine/Draw.lean ====
section
/-! DEFINITION. Sprite draw (spec/44_draw.md R180). -/

namespace Sys2Proof.Machine

/-- A draw under way: the display and the sticky collision. -/
structure Canvas where
  disp : Display
  hit  : Bool
  deriving DecidableEq, Repr

/-- A set sprite bit at a pixel: collision when the pixel was set, then the toggle. -/
def Canvas.strike (c : Canvas) (x y : Nat) : Canvas :=
  { disp := c.disp.toggle x y, hit := c.hit || c.disp.pixel x y }

/-- Bit position `b` of a sprite row, most significant first; clipped at the right edge, not wrapped. -/
def drawBit (x0 y : Nat) (row : Byte) (c : Canvas) (b : Nat) : Canvas :=
  if DISP_W ≤ x0 + b then c
  else if row.getMsbD b then c.strike (x0 + b) y
  else c

/-- One sprite row: bit positions 0 to 7. -/
def drawRow (x0 y : Nat) (row : Byte) (c : Canvas) : Canvas :=
  (List.range 8).foldl (drawBit x0 y row) c

/-- The sprite's rows from row `y` down. -/
def drawRows (x0 y : Nat) : List Byte → Canvas → Canvas
  | [], c => c
  | row :: rows, c => drawRows x0 (y + 1) rows (drawRow x0 y row c)

/-- `DXYN` DRW VX, VY, N (R180): the rows that are read are all checked before anything is written;
VF takes the sticky collision. -/
def execDrw (x y : RegIdx) (n : Nibble) (s : State) : Host.Outcome State Fault Refusal :=
  complete (.drw x y n) s (match loadBytes (memOperand s) (drawRowCount y n s) s with
    | .error k => .error k
    | .ok rows =>
      let o := drawOrigin x y s
      let c := drawRows o.1 o.2 rows ⟨s.disp, false⟩
      .ok ((s.setDisp c.disp).setReg regF (flagByte c.hit)).advance)

end Sys2Proof.Machine
end

