-- ==== Sys2Proof/Machine/Flow.lean ====
section
/-! DEFINITION. Group 0, jumps, calls and returns (spec/40_group0_and_flow.md, and R171 of
spec/43_index_jump_random.md). -/

namespace Sys2Proof.Machine

/-- `00E0` CLS (R100). -/
def execCls (s : State) : Host.Outcome State Fault Refusal := .next (s.setDisp Display.clear).advance

/-- `00EE` RET (R101): pc is the popped value, with no delta. -/
def execRet (s : State) : Host.Outcome State Fault Refusal :=
  complete .ret s (match pop s with
    | .error k => .error k
    | .ok (w, t) => .ok (t.setPc w))

/-- `0NNN` SYS (R102): a no-op. -/
def execSys (_nnn : Addr12) (s : State) : Host.Outcome State Fault Refusal := .next s.advance

/-- `1NNN` JP (R103). -/
def execJp (nnn : Addr12) (s : State) : Host.Outcome State Fault Refusal := .next (s.setPc (zext16 nnn))

/-- `2NNN` CALL (R104): pushes the address of the instruction after the call (D4, log 11). -/
def execCall (nnn : Addr12) (s : State) : Host.Outcome State Fault Refusal :=
  complete (.call nnn) s (match push (s.pc + 2) s with
    | .error k => .error k
    | .ok t => .ok (t.setPc (zext16 nnn)))

/-- `BNNN` JP V0 (R171): the sum is at most 0x10FE, so it does not wrap. -/
def execJpV0 (nnn : Addr12) (s : State) : Host.Outcome State Fault Refusal :=
  .next (s.setPc (zext16 nnn + (s.reg 0).setWidth 16))

end Sys2Proof.Machine
end

