-- ==== Sys2Proof/Machine/Index.lean ====
section
/-! DEFINITION. Index load, index arithmetic, font address, and random (R170 and R172 of
spec/43_index_jump_random.md, R240 and R241 of spec/47_index_memory.md). -/

namespace Sys2Proof.Machine

/-- `ANNN` LD I, NNN (R170). -/
def execLdI (nnn : Addr12) (s : State) : Host.Outcome State Fault Refusal :=
  .next (s.setIdx (zext16 nnn)).advance

/-- `FX1E` ADD I, VX (R240): modulo 65536, VF not written (D12, log 27). -/
def execAddIVx (x : RegIdx) (s : State) : Host.Outcome State Fault Refusal :=
  .next (s.setIdx (s.idx + (s.reg x).setWidth 16)).advance

/-- `FX29` LD F, VX (R241): no mask (D26, log 22). -/
def execLdFVx (x : RegIdx) (s : State) : Host.Outcome State Fault Refusal :=
  .next (s.setIdx (glyphAddress (s.reg x) s)).advance

/-- `CXNN` RND VX, NN (R172): the byte is a free value, and it is drawn even when NN = 0 (log 8). -/
def execRnd (x : RegIdx) (nn : Byte) (s : State) : Host.Outcome State Fault Refusal :=
  .next (s.setReg x (Config.randomByte s.draws &&& nn)).countDraw.advance

end Sys2Proof.Machine
end

