-- ==== Sys2Proof/Machine/Keypad.lean ====
section
/-! DEFINITION. Key skips, wait-for-key and the waiting step (spec/45_keypad.md). -/

namespace Sys2Proof.Machine

/-- The key probe (R200): the answer, and the state after it (a value above 15 takes a draw, log 9). -/
def isPressed (b : Byte) (s : State) : Bool × State :=
  if h : b.toNat < 16 then (s.keys.get ⟨b.toNat, h⟩, s)
  else (Config.keyProbe s.draws, s.countDraw)

/-- `EX9E` SKP VX (R201). -/
def execSkp (x : RegIdx) (s : State) : Host.Outcome State Fault Refusal :=
  .next ((isPressed (s.reg x) s).2.skipIf (isPressed (s.reg x) s).1)

/-- `EXA1` SKNP VX (R202). -/
def execSknp (x : RegIdx) (s : State) : Host.Outcome State Fault Refusal :=
  .next ((isPressed (s.reg x) s).2.skipIf (!(isPressed (s.reg x) s).1))

/-- `FX0A` LD VX, K (R204): clears the press edges and enters WaitingForKey; pc is not written. -/
def execLdVxK (x : RegIdx) (s : State) : Host.Outcome State Fault Refusal :=
  .next (s.clearEdges.setMode (.waitingForKey x))

/-- The key that completes a wait (R206): any latched one, by a free value (D11, log 10). -/
def pickedKey (s : State) (first : KeyCode) (others : List KeyCode) : KeyCode :=
  (first :: others).getD (Config.keyPick s.draws % (others.length + 1)) first

/-- `WaitStep(t)` (R206). -/
def waitStep (t : RegIdx) (s : State) : Host.Outcome State Fault Refusal :=
  match latchedKeys s with
  | [] => .next s
  | k :: ks =>
    .next (((s.setReg t (BitVec.ofNat 8 (pickedKey s k ks).val)).advance.setMode .running).clearEdges.countDraw)

end Sys2Proof.Machine
end

