-- ==== Sys2Proof/Machine/Transfer.lean ====
section
/-! DEFINITION. BCD and register block transfers (spec/47_index_memory.md R242 to R244). -/

namespace Sys2Proof.Machine

/-- `FX33` LD B, VX (R242). -/
def execLdBVx (x : RegIdx) (s : State) : Host.Outcome State Fault Refusal :=
  complete (.ldBVx x) s (match storeBytes (memOperand s) (bcdDigits (s.reg x)) s with
    | .error k => .error k
    | .ok t => .ok t.advance)

/-- `FX55` LD [I], VX (R243). -/
def execStoreRegs (x : RegIdx) (s : State) : Host.Outcome State Fault Refusal :=
  complete (.storeRegs x) s (match storeBytes (memOperand s) (regRange x s) s with
    | .error k => .error k
    | .ok t => .ok (t.setIdx (idxAfterRange x s)).advance)

/-- `FX65` LD VX, [I] (R244). -/
def execLoadRegs (x : RegIdx) (s : State) : Host.Outcome State Fault Refusal :=
  complete (.loadRegs x) s (match loadBytes (memOperand s) (x.val + 1) s with
    | .error k => .error k
    | .ok bs => .ok ((s.setRegs bs).setIdx (idxAfterRange x s)).advance)

end Sys2Proof.Machine
end

