-- ==== Sys2Proof/Machine/Step.lean ====
section
/-! DEFINITION. The step cycle (spec/30_encoding.md R85), and placing one instruction where the next step
fetches. -/

namespace Sys2Proof.Machine

/-- `step()` (R85). Its result is `stepResult` of the state it answers (log 15). Timers are not decremented here (R338). -/
def step (s : State) : Host.Outcome State Fault Refusal :=
  match s.mode with
  | .faulted => stepFaulted s
  | .waitingForKey t => waitStep t s
  | .running =>
    match fetch s with
    | .error k => fetchFault k s
    | .ok w =>
      match dispatch w with
      | .error _ => illegalWord w s
      | .ok i => exec i s

/-- The state in which the very next step fetches the given instruction (log 24): its two bytes at `pc`
and `pc + 1`, mode Running with no fault recorded; a `pc` that no fetch accepts is set to 0x200. -/
def State.withFetchWord (s : State) (nbits w : Nat) : State :=
  let pc : Word := if s.pc.toNat ≤ 4094 then s.pc else 0x200#16
  ({ s with pc := pc, mode := .running, fault := none }).pokeAll pc.toNat (wordBytes (tableWord nbits w))

end Sys2Proof.Machine
end

