-- ==== Sys2Proof/Machine/Transactions.lean ====
section
/-! DEFINITION. The block's interface: the host's atomic transactions between steps (spec/00_scope.md R7;
log 18), and a host's run as a list of them. -/

namespace Sys2Proof.Machine

/-- `load` writes the bytes at 0x200, 0x201, … and nothing else, after the size check (R335). -/
def load (bytes : List Byte) (s : State) : Host.Outcome State Fault Refusal :=
  if bytes.length > PROG_MAX then .fault (.programTooLarge bytes.length)
  else .next (s.pokeAll PROG_BASE bytes)

/-- A timer's tick: less one, floored at 0 (R223). -/
def tickDown (b : Byte) : Byte := if b.toNat > 0 then b - 1 else b

/-- `tick_timers()` (R223), in every mode. -/
def tickTimers (s : State) : State := { s with dt := tickDown s.dt, st := tickDown s.st }

/-- `set_key_state(k, p)` (R203), in every mode. -/
def setKeyState (k : KeyCode) (p : Bool) (s : State) : State :=
  { s with
    edge := if p && !s.keys.get k then s.edge.set k.val true k.isLt else s.edge
    keys := s.keys.set k.val p k.isLt }

/-- `display_snapshot()` (R182). -/
def displaySnapshot (s : State) : Display := s.disp

/-- `sound_timer_active()` (R224). -/
def soundTimerActive (s : State) : Bool := s.st != 0

/-- What `step()` returned when it left this state (R85, R302, R306): `none` for Ok, the fault record for
Err. A step returns Err exactly when it leaves mode Faulted. -/
def stepResult (s : State) : Option FaultRecord :=
  match s.mode with
  | .faulted => s.fault
  | .running => none
  | .waitingForKey _ => none

/-- The transactions of R7. -/
inductive Transaction where
  | step
  | load (bytes : List Byte)
  | tickTimers
  | setKeyState (k : KeyCode) (pressed : Bool)
  | displaySnapshot
  | soundTimerActive
  deriving DecidableEq, Repr

/-- What a transaction returns to the host (R7). -/
inductive Reply where
  | ok
  | stepFault (record : FaultRecord)
  | failed (f : Fault)
  | refusedStep (r : Refusal)
  | snapshot (d : Display)
  | active (b : Bool)
  deriving DecidableEq, Repr

/-- The reply to `step()` that left a state. -/
def stepReply (s : State) : Reply :=
  match stepResult s with
  | none => .ok
  | some r => .stepFault r

/-- One transaction: the state after it and its reply. A call that fails leaves the state as it was. -/
def transact (a : Transaction) (s : State) : State × Reply :=
  match a with
  | .step =>
    match step s with
    | .next t => (t, stepReply t)
    | .fault f => (s, .failed f)
    | .refused r => (s, .refusedStep r)
  | .load bytes =>
    match load bytes s with
    | .next t => (t, .ok)
    | .fault f => (s, .failed f)
    | .refused r => (s, .refusedStep r)
  | .tickTimers => (tickTimers s, .ok)
  | .setKeyState k p => (setKeyState k p s, .ok)
  | .displaySnapshot => (s, .snapshot (displaySnapshot s))
  | .soundTimerActive => (s, .active (soundTimerActive s))

/-- A host's run: transactions in the order the host issues them (R71, R338). -/
def runHost : List Transaction → State → State
  | [], s => s
  | a :: rest, s => runHost rest (transact a s).1

end Sys2Proof.Machine
end

