-- ==== Sys2Proof/Safety.lean ====
section
/-! DEFINITION. The terms in which claims about the machine are stated: the parts of the state and when a
step keeps one, the invariant of every run, and a safe state. -/

namespace Sys2Proof.Machine

/-- The parts of the state that a frame names; `pc` and the model's own `draws` stand for themselves. -/
inductive Part where
  | regs | idx | memory | stack | timers | display | keypad | modeAndFault | draws
  deriving DecidableEq, Repr

/-- A part of the state is the same in two states: memory by its every byte, the display by its every
pixel. -/
def Part.same (s t : State) : Part → Prop
  | .regs => ∀ r, t.reg r = s.reg r
  | .idx => t.idx = s.idx
  | .memory => ∀ a, t.byteAt a = s.byteAt a
  | .stack => t.stack = s.stack
  | .timers => t.dt = s.dt ∧ t.st = s.st
  | .display => ∀ x y, t.disp.pixel x y = s.disp.pixel x y
  | .keypad => t.keys = s.keys ∧ t.edge = s.edge
  | .modeAndFault => t.mode = s.mode ∧ t.fault = s.fault
  | .draws => t.draws = s.draws

/-- Every part but the listed ones is kept, and so are the parameters; `pc` may change. -/
def KeptBut (changed : List Part) (s t : State) : Prop :=
  t.params = s.params ∧ ∀ p : Part, p ∉ changed → p.same s t

/-- Every register but the listed ones is kept. -/
def RegsKeptBut (changed : List RegIdx) (s t : State) : Prop :=
  ∀ r : RegIdx, r ∉ changed → t.reg r = s.reg r

/-- The state in which an instruction's fault is entered (R302): mode Faulted, the record, and the `pc`
unchanged. It says nothing of the other parts (D14, log 16). -/
def EnteredFault (s t : State) (k : FaultKind) (word : Option Word) : Prop :=
  t.mode = .faulted ∧ t.fault = some ⟨k, s.pc, word⟩ ∧ t.pc = s.pc

/-- The whole effect of an instruction that puts the value `b` in `V[x]` and nothing else: no other
register (VF among them), the default pc delta, every other part kept. -/
def LoadsReg (s t : State) (x : RegIdx) (b : Nat) : Prop :=
  (t.reg x).toNat = b ∧ RegsKeptBut [x] s t ∧ t.pc = s.pc + 2 ∧ KeptBut [.regs] s t

/-- The whole effect of `8XY5`, `8XY7`, `8XY6`, `8XYE` with result `r` and flag `f` (the table of R146):
for X = 0xF the write that `VF_ORDER` puts last survives. -/
def WritesResultAndFlag (s t : State) (x : RegIdx) (r f : Nat) : Prop :=
  (x ≠ regF → (t.reg x).toNat = r ∧ (t.reg regF).toNat = f) ∧
  (x = regF → s.params.vfOrder = .docOrder → (t.reg regF).toNat = r) ∧
  (x = regF → s.params.vfOrder = .flagLast → (t.reg regF).toNat = f) ∧
  RegsKeptBut [x, regF] s t ∧ t.pc = s.pc + 2 ∧ KeptBut [.regs] s t

/-- The value of the shift source (R150, R151), by `SHIFT_SOURCE`. -/
def shiftSourceValue (s : State) (x y : RegIdx) : Nat :=
  if s.params.shiftSource = .vy then (s.reg y).toNat else (s.reg x).toNat

/-- I after `FX55` and `FX65` (R243, R244), by `LOADSTORE_I`. -/
def idxAfterTransfer (s : State) (x : RegIdx) : Nat :=
  if s.params.loadStoreI = .increment then (s.idx.toNat + x.val + 1) % 65536 else s.idx.toNat

/-- The row and bit loops of R180: a set, unclipped sprite bit lands on pixel `(px, py)`. Row r is at
`VY mod 32 + r`, bit position b (0 the most significant) at `VX mod 64 + b`, neither wrapped. -/
def SpriteBit (s : State) (x y : RegIdx) (n : Nibble) (px py : Nat) : Prop :=
  ∃ r < n.toNat, ∃ b < 8,
    px = (s.reg x).toNat % 64 + b ∧ py = (s.reg y).toNat % 32 + r ∧ px < 64 ∧ py < 32 ∧
    (s.byteAt (s.idx.toNat + r)).getMsbD b = true

/-- The rows that a draw reads are all in memory (R180). -/
def SpriteInMemory (s : State) (y : RegIdx) (n : Nibble) : Prop :=
  ∀ r < n.toNat, (s.reg y).toNat % 32 + r < 32 → s.idx.toNat + r ≤ 4095

/-- The fault table (R301) for the instructions: which fault an instruction raises in a state, if any.
An effective address is out of range above 4095, and the lowest such address is recorded. -/
def faultOf (i : Instr) (s : State) : Option FaultKind :=
  match i with
  | .call _ => if s.sp ≥ 16 then some (.stackFault .overflow) else none
  | .ret => if s.sp = 0 then some (.stackFault .underflow) else none
  | .drw _ y n =>
    if min n.toNat (32 - (s.reg y).toNat % 32) = 0 then none
    else if s.idx.toNat + min n.toNat (32 - (s.reg y).toNat % 32) > 4096 then
      some (.memoryFault (max s.idx.toNat 4096))
    else none
  | .ldBVx _ => if s.idx.toNat + 2 > 4095 then some (.memoryFault (max s.idx.toNat 4096)) else none
  | .storeRegs x => if s.idx.toNat + x.val > 4095 then some (.memoryFault (max s.idx.toNat 4096)) else none
  | .loadRegs x => if s.idx.toNat + x.val > 4095 then some (.memoryFault (max s.idx.toNat 4096)) else none
  | .cls | .sys _ | .jp _ | .seImm _ _ | .sneImm _ _ | .seReg _ _ _ | .ldImm _ _ | .addImm _ _
  | .ldReg _ _ | .orReg _ _ | .andReg _ _ | .xorReg _ _ | .addReg _ _ | .subReg _ _ | .shr _ _
  | .subnReg _ _ | .shl _ _ | .sneReg _ _ _ | .ldI _ | .jpV0 _ | .rnd _ _ | .skp _ | .sknp _
  | .ldVxDt _ | .ldVxK _ | .ldDtVx _ | .ldStVx _ | .addIVx _ | .ldFVx _ => none

/-- The registers an instruction may write (R31, R32): its destination VX, VF where it is a flag-writing
instruction, V0..VX for `FX65`. -/
def writtenRegs (i : Instr) : List RegIdx :=
  match i with
  | .ldImm x _ | .addImm x _ | .ldReg x _ | .orReg x _ | .andReg x _ | .xorReg x _ | .rnd x _
  | .ldVxDt x => [x]
  | .addReg x _ | .subReg x _ | .shr x _ | .subnReg x _ | .shl x _ => [x, regF]
  | .drw _ _ _ => [regF]
  | .loadRegs x => (List.finRange 16).filter fun k => k ≤ x
  | .cls | .ret | .sys _ | .jp _ | .call _ | .seImm _ _ | .sneImm _ _ | .seReg _ _ _ | .sneReg _ _ _
  | .ldI _ | .jpV0 _ | .skp _ | .sknp _ | .ldVxK _ | .ldDtVx _ | .ldStVx _ | .addIVx _ | .ldFVx _
  | .ldBVx _ | .storeRegs _ => []

/-- The parts other than the registers that an instruction may write when it raises no fault: I (R33),
memory (R68), the stack (R38), the timers (R39), the display (R40), the key state (R41), the mode (R42). -/
def writtenParts (i : Instr) (s : State) : List Part :=
  match i with
  | .cls => [.display]
  | .drw _ _ _ => [.regs, .display]
  | .call _ | .ret => [.stack]
  | .ldI _ | .addIVx _ | .ldFVx _ => [.idx]
  | .storeRegs _ => if s.params.loadStoreI = .increment then [.memory, .idx] else [.memory]
  | .loadRegs _ => if s.params.loadStoreI = .increment then [.regs, .idx] else [.regs]
  | .ldBVx _ => [.memory]
  | .ldDtVx _ | .ldStVx _ => [.timers]
  | .ldVxK _ => [.keypad, .modeAndFault]
  | .rnd _ _ => [.regs, .draws]
  | .skp x | .sknp x => if (s.reg x).toNat < 16 then [] else [.draws]
  | .ldImm _ _ | .addImm _ _ | .ldReg _ _ | .orReg _ _ | .andReg _ _ | .xorReg _ _ | .addReg _ _
  | .subReg _ _ | .shr _ _ | .subnReg _ _ | .shl _ _ | .ldVxDt _ => [.regs]
  | .sys _ | .jp _ | .seImm _ _ | .sneImm _ _ | .seReg _ _ _ | .sneReg _ _ _ | .jpV0 _ => []

/-- The bytes that an instruction stores to when it raises no fault (R68): three for `FX33`, X + 1 for `FX55`. -/
def StoresTo (i : Instr) (s : State) (a : Nat) : Prop :=
  match i with
  | .ldBVx _ => s.idx.toNat ≤ a ∧ a ≤ s.idx.toNat + 2
  | .storeRegs x => s.idx.toNat ≤ a ∧ a ≤ s.idx.toNat + x.val
  | .cls | .ret | .sys _ | .jp _ | .call _ | .seImm _ _ | .sneImm _ _ | .seReg _ _ _ | .ldImm _ _
  | .addImm _ _ | .ldReg _ _ | .orReg _ _ | .andReg _ _ | .xorReg _ _ | .addReg _ _ | .subReg _ _
  | .shr _ _ | .subnReg _ _ | .shl _ _ | .sneReg _ _ _ | .ldI _ | .jpV0 _ | .rnd _ _ | .drw _ _ _
  | .skp _ | .sknp _ | .ldVxDt _ | .ldVxK _ | .ldDtVx _ | .ldStVx _ | .addIVx _ | .ldFVx _
  | .loadRegs _ => False

/-- Is the mode WaitingForKey? -/
def Mode.isWaiting : Mode → Bool
  | .waitingForKey _ => true
  | .running => false
  | .faulted => false

/-- A fault record agrees with the fault table (R301) and with the way it was entered (R302, R303,
R304): an address out of range, the illegal word itself. -/
def FaultRecord.consistent (r : FaultRecord) : Prop :=
  match r.kind with
  | .memoryFault a => MEM_SIZE ≤ a
  | .stackFault _ => r.word ≠ none
  | .unimplementedInstruction w => r.word = some w

/-- The invariant of every run: memory in its canonical form with every listed address in 0..4095 (R60); the stack's depth
at most 16 and every return address at most 4096 (R37, R104); a fault recorded exactly in mode Faulted,
with the `pc` it was raised at, and consistent (R43, R302); `pc` at most 0x10FE, or still the entry
point (R35); a wait only at an address that was fetched (R204). -/
structure MachineInv (s : State) : Prop where
  memory  : Memory.wf s.params s.mem = true
  depth   : s.sp ≤ STACK_DEPTH
  returns : ∀ w ∈ s.stack, w.toNat ≤ MEM_SIZE
  record  : s.fault = none ↔ s.mode ≠ .faulted
  precise : ∀ r, s.fault = some r → r.pc = s.pc ∧ r.consistent
  pcBound : s.pc.toNat ≤ 0x10FE ∨ s.pc = s.params.entryPc
  waitsAt : s.mode.isWaiting = true → s.pc.toNat ≤ 4094

/-- A state that no fault has ended (R306). -/
def Safe (s : State) : Prop := s.mode ≠ .faulted

/-- Reached from a construction by a host's transactions, in any order (R330, R338). -/
def Reachable (s : State) : Prop := ∃ p as, s = runHost as (State.construct p)

end Sys2Proof.Machine
end

