-- ==== Sys2Proof/Certificates/Slice0/Obligations.lean ====
section
/-! DEFINITION. The statements about the machine. A statement marked "derived" in OBLIGATIONS.json rests, in
part, on a decision of the spec (92_eei_decisions.md) or of the model (notes/assumptions), named in its
docstring. -/

open Sys2Proof Sys2Proof.Machine Host

/-! ### Reset and load -/

/-- R331, for every setting of the parameters: the state after construction. The entry point, the font and
the reset of display, keys, mode and fault are the spec's decisions D1, D2, D3, D30, D32 (log 2, 3, 4, 21);
the count of draws is the model's own and nothing is said of it. -/
def Obligations.ConstructedStateValues : Prop :=
  ∀ p : Params,
    (∀ k : Nat, (h : k < 80) → (State.construct p).byteAt (p.fontBase.val + k) = p.fontData[k]) ∧
    (∀ a : Nat, a < p.fontBase.val ∨ p.fontBase.val + 80 ≤ a → (State.construct p).byteAt a = 0) ∧
    (∀ r, (State.construct p).reg r = 0) ∧ (State.construct p).idx = 0 ∧
    (State.construct p).pc = p.entryPc ∧ (State.construct p).stack = [] ∧
    (State.construct p).dt = 0 ∧ (State.construct p).st = 0 ∧
    (∀ x y, (State.construct p).disp.pixel x y = false) ∧
    (∀ k, (State.construct p).keys.get k = false) ∧ (∀ k, (State.construct p).edge.get k = false) ∧
    (State.construct p).mode = .running ∧ (State.construct p).fault = none ∧
    (State.construct p).params = p

/-- R5, R331, R332: the defaults that State.reset takes: `ENTRY_PC` 0x200, `FONT_BASE` 0x050, and the rows
of glyphs 0 and F. They are the spec's decisions D1, D2, D3 (log 2, 3, 4). -/
def Obligations.ResetDefaults : Prop :=
  State.reset.pc = 0x200 ∧ State.reset.params.shiftSource = .vy ∧
  State.reset.params.vfOrder = .docOrder ∧ State.reset.params.loadStoreI = .unchanged ∧
  (List.range 5).map (fun k => State.reset.byteAt (0x050 + k)) = [0xF0, 0x90, 0x90, 0x90, 0xF0] ∧
  (List.range 5).map (fun k => State.reset.byteAt (0x09B + k)) = [0xF0, 0x80, 0xF0, 0x80, 0x80] ∧
  State.reset.byteAt 0x04F = 0 ∧ State.reset.byteAt 0x0A0 = 0

/-- R335 (its check before any write is D21, log 19): `load` of at most 3584 bytes writes them at 0x200, 0x201, … and
nothing else; a longer program is rejected and changes nothing (the host keeps its state and mode). -/
def Obligations.LoadCopiesProgram : Prop :=
  ∀ (b : List Byte) (s : State),
    (b.length ≤ 3584 → ∃ t, load b s = .next t ∧ transact (.load b) s = (t, .ok) ∧
      (∀ k : Nat, (h : k < b.length) → t.byteAt (0x200 + k) = b[k]) ∧
      (∀ a : Nat, a < 0x200 ∨ 0x200 + b.length ≤ a → t.byteAt a = s.byteAt a) ∧
      t.pc = s.pc ∧ KeptBut [.memory] s t) ∧
    (b.length > 3584 → load b s = .fault (.programTooLarge b.length) ∧
      transact (.load b) s = (s, .failed (.programTooLarge b.length)))

/-! ### Encoding, decode, dispatch -/

/-- A few words written out from the patterns of R87, and what they stand for. -/
def Obligations.SampleWordsDecode : Prop :=
  dispatch 0x00E0 = .ok .cls ∧ dispatch 0x0000 = .ok (.sys 0x000) ∧ dispatch 0x2ABC = .ok (.call 0xABC) ∧
  dispatch 0x332A = .ok (.seImm 3 0x2A) ∧ dispatch 0x8127 = .ok (.subnReg 1 2) ∧
  dispatch 0x812E = .ok (.shl 1 2) ∧ dispatch 0xBFFF = .ok (.jpV0 0xFFF) ∧
  dispatch 0xD125 = .ok (.drw 1 2 5) ∧ dispatch 0xE1A1 = .ok (.sknp 1) ∧
  dispatch 0xF733 = .ok (.ldBVx 7) ∧ dispatch 0xFF65 = .ok (.loadRegs 0xF)

/-- Decode and encode agree, for every well-formed instruction, on its bytes in memory order (R66, R87). -/
def Obligations.DecodeOfEncode : Prop :=
  ∀ (i : Instr) (rest : List Byte), i.wellFormed = true →
    decode (wordBytes (encode i) ++ rest) = .ok (i, rest)

/-- Every word that names an instruction is that instruction's word: no bit is dropped (R80, R81). -/
def Obligations.EncodeOfDispatch : Prop :=
  ∀ (w : Word) (i : Instr), dispatch w = .ok i → encode i = w ∧ i.wellFormed = true

/-- The opcode map R87: a word dispatches to the instruction of the row whose mask and match it fits, the
exact-word rows of group 0 first. -/
def Obligations.DispatchFollowsOpcodeMap : Prop :=
  (∀ (w : Word) (i : Instr), dispatch w = .ok i → w &&& (opcodeRow i).mask = (opcodeRow i).value) ∧
  (∀ (w : Word) (j : Instr), j.wellFormed = true → w &&& (opcodeRow j).mask = (opcodeRow j).value →
    (opcodeRow j = ⟨0xF000#16, 0x0000#16⟩ → w ≠ 0x00E0#16 ∧ w ≠ 0x00EE#16) →
    ∃ i, dispatch w = .ok i ∧ opcodeRow i = opcodeRow j)

/-- Exactly the words of R90 are illegal; a running step that fetches one enters
`UnimplementedInstruction(word)` with `pc` and the word recorded (R302). -/
def Obligations.IllegalWordsExactly : Prop :=
  (∀ w : Word, dispatch w = .error (.unimplemented w) ↔
    (w.toNat / 4096 = 0x8 ∧ w.toNat % 16 ∈ [0x8, 0x9, 0xA, 0xB, 0xC, 0xD, 0xF]) ∨
    (w.toNat / 4096 = 0xE ∧ w.toNat % 256 ∉ [0x9E, 0xA1]) ∨
    (w.toNat / 4096 = 0xF ∧ w.toNat % 256 ∉ [0x07, 0x0A, 0x15, 0x18, 0x1E, 0x29, 0x33, 0x55, 0x65])) ∧
  (∀ (s : State) (w : Word), s.mode = .running → s.pc.toNat ≤ 4094 →
    hiLo (s.byteAt s.pc.toNat) (s.byteAt (s.pc.toNat + 1)) = w →
    dispatch w = .error (.unimplemented w) →
    ∃ t, step s = .next t ∧ EnteredFault s t (.unimplementedInstruction w) (some w))

/-! ### The step cycle -/

/-- R64, R66, R85: when the two bytes at `pc` (high byte first) decode to an instruction, a running step is
its execution in that very state: fetch does not move `pc`. -/
def Obligations.StepRunsDecodedInstruction : Prop :=
  ∀ (s : State) (i : Instr), s.mode = .running → s.pc.toNat ≤ 4094 →
    decode [s.byteAt s.pc.toNat, s.byteAt (s.pc.toNat + 1)] = .ok (i, []) →
    step s = exec i s

/-- R65: a running step with `pc` in [4095, 65535] faults at fetch, with the lowest out-of-range address of
`pc` and `pc + 1` and no word recorded; a fetch at 4094 reads 4094 and 4095. -/
def Obligations.FetchFaultsAboveMemory : Prop :=
  (∀ s : State, s.mode = .running → 4095 ≤ s.pc.toNat →
    ∃ t, step s = .next t ∧
      EnteredFault s t (.memoryFault (if s.pc.toNat = 4095 then 4096 else s.pc.toNat)) none) ∧
  (∀ s : State, s.pc.toNat = 4094 → fetch s = .ok (hiLo (s.byteAt 4094) (s.byteAt 4095)))

/-- THE MODEL'S CHOICE (log 15): from every state a step answers a next state. A step that faults answers the
state that the entry R302 describes, and a step in mode Faulted answers the same state (R306); the `Err` that
R85 returns in both cases is `stepResult` of the state answered. -/
def Obligations.EveryStepAnswersNext : Prop := ∀ s : State, ∃ t, step s = .next t

/-- R302, R303, R305 (D14, log 16): a step that enters mode Faulted changes the mode and the fault record,
which holds the `pc` of the faulting instruction, and NOTHING else. That the rest is kept is the spec's
decision D14; 93_implementation_defined.md warns that the repository may leave partial writes. -/
def Obligations.FaultingStepChangesNothingElse : Prop :=
  ∀ s t : State, s.mode ≠ .faulted → step s = .next t → t.mode = .faulted →
    ∃ k word, t = { s with mode := .faulted, fault := some ⟨k, s.pc, word⟩ } ∧
      stepResult t = some ⟨k, s.pc, word⟩

/-- R306 (D19, log 15, log 18): mode Faulted is final. A step changes no state and returns the recorded
fault again, and no sequence of host transactions leaves the mode or changes the record. -/
def Obligations.FaultedModeIsFinal : Prop :=
  ∀ s : State, s.mode = .faulted →
    step s = .next s ∧ stepResult s = s.fault ∧
    ∀ as, (runHost as s).mode = .faulted ∧ (runHost as s).fault = s.fault

/-- The fault table R301 for execution: in each listed case the instruction enters exactly that fault, with
its word recorded; in every other case it raises none ("No other instruction can fault"), and the mode is
kept but for `FX0A`. R301 lists overflow at SP = 16; that a call from a depth above 16, which no run reaches,
overflows too is the model's choice (log 26). -/
def Obligations.FaultTableExactly : Prop :=
  ∀ (i : Instr) (s : State),
    (∀ k, faultOf i s = some k → ∃ t, exec i s = .next t ∧ EnteredFault s t k (some (encode i))) ∧
    (faultOf i s = none → ∃ t, exec i s = .next t ∧ t.fault = s.fault ∧
      (t.mode = s.mode ∨ ∃ x, i = .ldVxK x ∧ t.mode = .waitingForKey x))

/-! ### Group 0, jumps, calls, returns, skips -/

/-- R100: `00E0` clears every pixel and changes nothing else. -/
def Obligations.ClsClearsDisplay : Prop :=
  ∀ s : State, ∃ t, exec .cls s = .next t ∧ (∀ x y, x < 64 → y < 32 → t.disp.pixel x y = false) ∧
    t.pc = s.pc + 2 ∧ KeptBut [.display] s t

/-- R102: every word of opcode 0 but 0x00E0 and 0x00EE is `0NNN`, and it is a no-op. -/
def Obligations.SysIsNoOp : Prop :=
  (∀ w : Word, w.toNat < 4096 → w ≠ 0x00E0#16 → w ≠ 0x00EE#16 → ∃ nnn, dispatch w = .ok (.sys nnn)) ∧
  (∀ (nnn : Addr12) (s : State), ∃ t, exec (.sys nnn) s = .next t ∧ t.pc = s.pc + 2 ∧ KeptBut [] s t)

/-- R103: `1NNN` puts NNN in `pc` and changes nothing else. -/
def Obligations.JpSetsPc : Prop :=
  ∀ (nnn : Addr12) (s : State), ∃ t, exec (.jp nnn) s = .next t ∧ t.pc.toNat = nnn.toNat ∧ KeptBut [] s t

/-- R171 (no wrap: D15, log 13): `BNNN` puts the exact sum NNN + V0 in `pc`. -/
def Obligations.JpV0SetsExactSum : Prop :=
  ∀ (nnn : Addr12) (s : State), ∃ t, exec (.jpV0 nnn) s = .next t ∧
    t.pc.toNat = nnn.toNat + (s.reg 0).toNat ∧ KeptBut [] s t

/-- R104 (the value pushed is D4, log 11): `2NNN` below depth 16 pushes `pc + 2` and jumps; at depth 16 it
enters `StackFault(Overflow)`. -/
def Obligations.CallPushesReturnAddress : Prop :=
  ∀ (nnn : Addr12) (s : State),
    (s.sp < 16 → ∃ t, exec (.call nnn) s = .next t ∧ t.stack = s.stack ++ [s.pc + 2] ∧
      t.pc.toNat = nnn.toNat ∧ KeptBut [.stack] s t) ∧
    (s.sp = 16 → ∃ t, exec (.call nnn) s = .next t ∧
      EnteredFault s t (.stackFault .overflow) (some (BitVec.ofNat 16 (0x2000 + nnn.toNat))))

/-- R101: `00EE` with a return address on top pops it into `pc` with no delta; with an empty stack it enters
`StackFault(Underflow)`. -/
def Obligations.RetPopsIntoPc : Prop :=
  ∀ s : State,
    (∀ below w, s.stack = below ++ [w] → ∃ t, exec .ret s = .next t ∧ t.pc = w ∧ t.stack = below ∧
      KeptBut [.stack] s t) ∧
    (s.sp = 0 → ∃ t, exec .ret s = .next t ∧ EnteredFault s t (.stackFault .underflow) (some 0x00EE))

/-- The call and return round trip (R101, R104, conflict C1): from below depth 16, `2NNN`, then any code that
leaves the stack as the call left it, then `00EE`, arrives at the instruction after the call with the stack
of before the call. -/
def Obligations.CallReturnRoundTrip : Prop :=
  ∀ (nnn : Addr12) (s : State), s.sp < 16 → ∃ t, exec (.call nnn) s = .next t ∧
    ∀ u : State, u.stack = t.stack →
      ∃ v, exec .ret u = .next v ∧ v.pc = s.pc + 2 ∧ v.stack = s.stack ∧ KeptBut [.stack] u v

/-- R120, R121: the skips on a register and a byte. -/
def Obligations.ImmediateSkips : Prop :=
  ∀ (x : RegIdx) (nn : Byte) (s : State),
    (∃ t, exec (.seImm x nn) s = .next t ∧
      t.pc = (if s.reg x = nn then s.pc + 4 else s.pc + 2) ∧ KeptBut [] s t) ∧
    (∃ t, exec (.sneImm x nn) s = .next t ∧
      t.pc = (if s.reg x ≠ nn then s.pc + 4 else s.pc + 2) ∧ KeptBut [] s t)

/-- R122, R123: the skips on two registers. That the words with N other than 0 execute as these, so that the
statement is for every N, is the spec's reading D31 (log 22). -/
def Obligations.RegisterSkips : Prop :=
  ∀ (x y : RegIdx) (n : Nibble) (s : State),
    (∃ t, exec (.seReg x y n) s = .next t ∧
      t.pc = (if s.reg x = s.reg y then s.pc + 4 else s.pc + 2) ∧ KeptBut [] s t) ∧
    (∃ t, exec (.sneReg x y n) s = .next t ∧
      t.pc = (if s.reg x ≠ s.reg y then s.pc + 4 else s.pc + 2) ∧ KeptBut [] s t)

/-! ### Register loads, arithmetic, logic, shifts -/

/-- R140, R141: the immediate forms; `7XNN` wraps modulo 256 and writes no flag. -/
def Obligations.ImmediateLoadAndAdd : Prop :=
  ∀ (x : RegIdx) (nn : Byte) (s : State),
    (∃ t, exec (.ldImm x nn) s = .next t ∧ LoadsReg s t x nn.toNat) ∧
    (∃ t, exec (.addImm x nn) s = .next t ∧ LoadsReg s t x (((s.reg x).toNat + nn.toNat) % 256))

/-- R142 to R145: move, OR, AND, XOR; no flag is written. -/
def Obligations.MoveAndLogic : Prop :=
  ∀ (x y : RegIdx) (s : State),
    (∃ t, exec (.ldReg x y) s = .next t ∧ LoadsReg s t x (s.reg y).toNat) ∧
    (∃ t, exec (.orReg x y) s = .next t ∧ LoadsReg s t x ((s.reg x).toNat ||| (s.reg y).toNat)) ∧
    (∃ t, exec (.andReg x y) s = .next t ∧ LoadsReg s t x ((s.reg x).toNat &&& (s.reg y).toNat)) ∧
    (∃ t, exec (.xorReg x y) s = .next t ∧ LoadsReg s t x ((s.reg x).toNat ^^^ (s.reg y).toNat))

/-- R147: `8XY4` leaves the carry in VF under both settings of `VF_ORDER`, X = 0xF included. -/
def Obligations.AddSetsCarry : Prop :=
  ∀ (x y : RegIdx) (s : State), ∃ t, exec (.addReg x y) s = .next t ∧
    (t.reg regF).toNat = (if (s.reg x).toNat + (s.reg y).toNat > 255 then 1 else 0) ∧
    (x ≠ regF → (t.reg x).toNat = ((s.reg x).toNat + (s.reg y).toNat) % 256) ∧
    RegsKeptBut [x, regF] s t ∧ t.pc = s.pc + 2 ∧ KeptBut [.regs] s t

/-- R148, R149, with the write order of R146 (D6, log 6) and operands sampled first (R89, D5, log 12): the
flag is 1 exactly when the minuend is strictly greater. -/
def Obligations.SubtractionsSetStrictFlag : Prop :=
  ∀ (x y : RegIdx) (s : State),
    (∃ t, exec (.subReg x y) s = .next t ∧
      WritesResultAndFlag s t x (((s.reg x).toNat + 256 - (s.reg y).toNat) % 256)
        (if (s.reg x).toNat > (s.reg y).toNat then 1 else 0)) ∧
    (∃ t, exec (.subnReg x y) s = .next t ∧
      WritesResultAndFlag s t x (((s.reg y).toNat + 256 - (s.reg x).toNat) % 256)
        (if (s.reg y).toNat > (s.reg x).toNat then 1 else 0))

/-- R150, R151 (shift source D7, log 5; write order D6, log 6): the shifts, for both settings of
`SHIFT_SOURCE`. -/
def Obligations.ShiftsSetBitOut : Prop :=
  ∀ (x y : RegIdx) (s : State),
    (∃ t, exec (.shr x y) s = .next t ∧
      WritesResultAndFlag s t x (shiftSourceValue s x y / 2) (shiftSourceValue s x y % 2)) ∧
    (∃ t, exec (.shl x y) s = .next t ∧
      WritesResultAndFlag s t x (shiftSourceValue s x y * 2 % 256) (shiftSourceValue s x y / 128))

/-! ### Index, random -/

/-- R170: `ANNN` puts NNN in I and changes nothing else. -/
def Obligations.LoadIndex : Prop :=
  ∀ (nnn : Addr12) (s : State), ∃ t, exec (.ldI nnn) s = .next t ∧ t.idx.toNat = nnn.toNat ∧
    t.pc = s.pc + 2 ∧ KeptBut [.idx] s t

/-- R240 (width of I: D12, log 27) and R241 (no mask: D26, log 22): index arithmetic; VF is not written. -/
def Obligations.IndexArithmetic : Prop :=
  ∀ (x : RegIdx) (s : State),
    (∃ t, exec (.addIVx x) s = .next t ∧ t.idx.toNat = (s.idx.toNat + (s.reg x).toNat) % 65536 ∧
      t.pc = s.pc + 2 ∧ KeptBut [.idx] s t) ∧
    (∃ t, exec (.ldFVx x) s = .next t ∧ t.idx.toNat = s.params.fontBase.val + 5 * (s.reg x).toNat ∧
      t.pc = s.pc + 2 ∧ KeptBut [.idx] s t)

/-- R172 (free value: log 8): `CXNN` takes one draw, whatever its value, and masks it; NN = 0 gives 0 and
the draw is still taken. -/
def Obligations.RandomIsMaskedDraw : Prop :=
  ∀ (x : RegIdx) (nn : Byte) (s : State), ∃ t, exec (.rnd x nn) s = .next t ∧
    t.reg x = Config.randomByte s.draws &&& nn ∧ (nn = 0 → t.reg x = 0) ∧ RegsKeptBut [x] s t ∧
    t.draws = s.draws + 1 ∧ t.pc = s.pc + 2 ∧ KeptBut [.regs, .draws] s t

/-! ### Draw -/

/-- R180, when the rows that are read are in memory: every pixel toggles exactly where a set, unclipped
sprite bit lands; VF is 1 exactly when such a pixel was set before, else 0; nothing else changes. N = 0
draws nothing and clears VF (D25, log 22). -/
def Obligations.DrawTogglesSprite : Prop :=
  ∀ (x y : RegIdx) (n : Nibble) (s : State), SpriteInMemory s y n →
    ∃ t, exec (.drw x y n) s = .next t ∧
      (∀ px py, SpriteBit s x y n px py → t.disp.pixel px py = !s.disp.pixel px py) ∧
      (∀ px py, ¬ SpriteBit s x y n px py → t.disp.pixel px py = s.disp.pixel px py) ∧
      ((∃ px py, SpriteBit s x y n px py ∧ s.disp.pixel px py = true) → t.reg regF = 1) ∧
      ((¬ ∃ px py, SpriteBit s x y n px py ∧ s.disp.pixel px py = true) → t.reg regF = 0) ∧
      RegsKeptBut [regF] s t ∧ t.pc = s.pc + 2 ∧ KeptBut [.regs, .display] s t

/-- R180, R301: a draw one of whose rows lies above 4095 enters `MemoryFault` with the lowest such address
and its word recorded. -/
def Obligations.DrawFaultsAboveMemory : Prop :=
  ∀ (x y : RegIdx) (n : Nibble) (s : State) (r : Nat), r < n.toNat → (s.reg y).toNat % 32 + r < 32 →
    4095 < s.idx.toNat + r → (∀ q < r, s.idx.toNat + q ≤ 4095) →
    ∃ t, exec (.drw x y n) s = .next t ∧ EnteredFault s t (.memoryFault (s.idx.toNat + r))
      (some (BitVec.ofNat 16 (0xD000 + x.val * 256 + y.val * 16 + n.toNat)))

/-- R180, R181: drawing the same sprite twice restores every pixel, provided VX and VY are unchanged between
the two draws. The second draw reports VF = 1 exactly when some pixel that a set, unclipped sprite bit lands
on was clear before the first draw, as it is on a clear display. R181 states that VF = 1 with no such
condition; where every such pixel was lit, R180 gives 0, and R180 is followed (log 33). -/
def Obligations.DoubleDrawRestores : Prop :=
  ∀ (x y : RegIdx) (n : Nibble) (s : State), SpriteInMemory s y n →
    ∃ t, exec (.drw x y n) s = .next t ∧
      (t.reg x = s.reg x → t.reg y = s.reg y →
        ∃ u, exec (.drw x y n) t = .next u ∧ (∀ px py, u.disp.pixel px py = s.disp.pixel px py) ∧
          ((∃ px py, SpriteBit s x y n px py ∧ s.disp.pixel px py = false) → u.reg regF = 1) ∧
          ((¬ ∃ px py, SpriteBit s x y n px py ∧ s.disp.pixel px py = false) → u.reg regF = 0))

/-! ### Keypad -/

/-- R203 (D10, D23, log 20): the host's key write, in any mode. -/
def Obligations.SetKeyStateLatchesEdge : Prop :=
  ∀ (k : KeyCode) (p : Bool) (s : State),
    (setKeyState k p s).keys.get k = p ∧
    (setKeyState k p s).edge.get k = (s.edge.get k || (p && !s.keys.get k)) ∧
    (∀ j, j ≠ k → (setKeyState k p s).keys.get j = s.keys.get j ∧
      (setKeyState k p s).edge.get j = s.edge.get j) ∧
    (setKeyState k p s).pc = s.pc ∧ KeptBut [.keypad] s (setKeyState k p s)

/-- R200, R201, R202: the key skips read the level of the key that VX names; above 15 the answer is a free
value (D9, log 9), so either way is possible and the same holds of the state otherwise. -/
def Obligations.KeySkips : Prop :=
  ∀ (x : RegIdx) (s : State),
    (∀ h : (s.reg x).toNat < 16,
      (∃ t, exec (.skp x) s = .next t ∧
        t.pc = (if s.keys.get ⟨(s.reg x).toNat, h⟩ = true then s.pc + 4 else s.pc + 2) ∧ KeptBut [] s t) ∧
      (∃ t, exec (.sknp x) s = .next t ∧
        t.pc = (if s.keys.get ⟨(s.reg x).toNat, h⟩ = false then s.pc + 4 else s.pc + 2) ∧ KeptBut [] s t)) ∧
    (15 < (s.reg x).toNat →
      (∃ t, exec (.skp x) s = .next t ∧ t.draws = s.draws + 1 ∧
        t.pc = (if Config.keyProbe s.draws = true then s.pc + 4 else s.pc + 2) ∧ KeptBut [.draws] s t) ∧
      (∃ t, exec (.sknp x) s = .next t ∧ t.draws = s.draws + 1 ∧
        t.pc = (if Config.keyProbe s.draws = false then s.pc + 4 else s.pc + 2) ∧ KeptBut [.draws] s t))

/-- R204 (clearing the edges: D10, log 20): `FX0A` clears every press edge and enters WaitingForKey(X); `pc` still holds its
address. -/
def Obligations.WaitForKeyEntry : Prop :=
  ∀ (x : RegIdx) (s : State), ∃ t, exec (.ldVxK x) s = .next t ∧ (∀ k, t.edge.get k = false) ∧
    t.keys = s.keys ∧ t.mode = .waitingForKey x ∧ t.fault = s.fault ∧ t.pc = s.pc ∧
    KeptBut [.keypad, .modeAndFault] s t

/-- R205, R206 (choice D11, log 10; the next instruction not executed D33, log 23): a waiting step does
nothing while no edge is latched; else it completes with some latched key. -/
def Obligations.WaitingStep : Prop :=
  ∀ (t : RegIdx) (s : State), s.mode = .waitingForKey t →
    ((∀ k, s.edge.get k = false) → step s = .next s) ∧
    ((∃ k, s.edge.get k = true) → ∃ k u, s.edge.get k = true ∧ step s = .next u ∧
      (u.reg t).toNat = k.val ∧ RegsKeptBut [t] s u ∧ u.pc = s.pc + 2 ∧ u.mode = .running ∧
      u.fault = s.fault ∧ (∀ j, u.edge.get j = false) ∧ u.keys = s.keys ∧ u.draws = s.draws + 1 ∧
      KeptBut [.regs, .keypad, .modeAndFault, .draws] s u)

/-- R205, R207, R312: while the host presses no key, no sequence of its transactions (steps, ticks, loads,
releases) ends a wait or changes a register, `pc`, the stack or the display. -/
def Obligations.WaitEndsOnlyByKeyPress : Prop :=
  ∀ (as : List Transaction) (t : RegIdx) (s : State), s.mode = .waitingForKey t →
    (∀ k, s.edge.get k = false) → (∀ k, Transaction.setKeyState k true ∉ as) →
    (runHost as s).mode = .waitingForKey t ∧ (runHost as s).pc = s.pc ∧ (runHost as s).v = s.v ∧
    (runHost as s).idx = s.idx ∧ (runHost as s).stack = s.stack ∧ (runHost as s).disp = s.disp

/-- R203, R206: the press of a key that is not held, with no other edge latched, ends the wait at the next
step with that key's code. -/
def Obligations.KeyPressCompletesWait : Prop :=
  ∀ (t : RegIdx) (k : KeyCode) (s : State), s.mode = .waitingForKey t → (∀ j, s.edge.get j = false) →
    s.keys.get k = false →
    (runHost [.setKeyState k true, .step] s).mode = .running ∧
    ((runHost [.setKeyState k true, .step] s).reg t).toNat = k.val ∧
    (runHost [.setKeyState k true, .step] s).pc = s.pc + 2

/-! ### Timers -/

/-- R220, R221, R222: the timer instructions. That the sound timer is active exactly when ST is not 0 (R224) is
the spec's decision D17 (log 28). -/
def Obligations.TimerInstructions : Prop :=
  ∀ (x : RegIdx) (s : State),
    (∃ t, exec (.ldVxDt x) s = .next t ∧ LoadsReg s t x s.dt.toNat) ∧
    (∃ t, exec (.ldDtVx x) s = .next t ∧ t.dt = s.reg x ∧ t.st = s.st ∧ t.pc = s.pc + 2 ∧
      KeptBut [.timers] s t) ∧
    (∃ t, exec (.ldStVx x) s = .next t ∧ t.st = s.reg x ∧ t.dt = s.dt ∧ t.pc = s.pc + 2 ∧
      soundTimerActive t = decide (s.reg x ≠ 0) ∧ KeptBut [.timers] s t)

/-- R223 (in every mode: D19, log 18): any number of ticks takes that number off each timer, floored at 0,
and changes nothing else. -/
def Obligations.TicksCountDownToZero : Prop :=
  ∀ (n : Nat) (s : State),
    (runHost (List.replicate n .tickTimers) s).dt.toNat = s.dt.toNat - n ∧
    (runHost (List.replicate n .tickTimers) s).st.toNat = s.st.toNat - n ∧
    (runHost (List.replicate n .tickTimers) s).pc = s.pc ∧
    KeptBut [.timers] s (runHost (List.replicate n .tickTimers) s)

/-- R182, R224: the two output transactions read the state and change nothing. -/
def Obligations.OutputsChangeNothing : Prop :=
  ∀ s : State, transact .displaySnapshot s = (s, .snapshot s.disp) ∧
    transact .soundTimerActive s = (s, .active (decide (s.st.toNat ≠ 0)))

/-! ### Memory transfers -/

/-- R242: `FX33` with I, I+1, I+2 in memory stores hundreds, tens and ones there and changes nothing else. -/
def Obligations.BcdStoresDigits : Prop :=
  ∀ (x : RegIdx) (s : State), s.idx.toNat + 2 ≤ 4095 →
    ∃ t, exec (.ldBVx x) s = .next t ∧
      (t.byteAt s.idx.toNat).toNat = (s.reg x).toNat / 100 ∧
      (t.byteAt (s.idx.toNat + 1)).toNat = (s.reg x).toNat / 10 % 10 ∧
      (t.byteAt (s.idx.toNat + 2)).toNat = (s.reg x).toNat % 10 ∧
      (∀ a, a < s.idx.toNat ∨ s.idx.toNat + 2 < a → t.byteAt a = s.byteAt a) ∧
      t.pc = s.pc + 2 ∧ KeptBut [.memory] s t

/-- R243 (I by `LOADSTORE_I`: D8, log 7): `FX55` with I..I+X in memory stores V0..VX there, and changes no
other byte. -/
def Obligations.StoreRegistersBlock : Prop :=
  ∀ (x : RegIdx) (s : State), s.idx.toNat + x.val ≤ 4095 →
    ∃ t, exec (.storeRegs x) s = .next t ∧
      (∀ k : RegIdx, k ≤ x → t.byteAt (s.idx.toNat + k.val) = s.reg k) ∧
      (∀ a, a < s.idx.toNat ∨ s.idx.toNat + x.val < a → t.byteAt a = s.byteAt a) ∧
      t.idx.toNat = idxAfterTransfer s x ∧ t.pc = s.pc + 2 ∧ KeptBut [.memory, .idx] s t

/-- R244 (I by `LOADSTORE_I`: D8, log 7): `FX65` with I..I+X in memory loads V0..VX from there, and changes
no other register and no byte. -/
def Obligations.LoadRegistersBlock : Prop :=
  ∀ (x : RegIdx) (s : State), s.idx.toNat + x.val ≤ 4095 →
    ∃ t, exec (.loadRegs x) s = .next t ∧
      (∀ k : RegIdx, k ≤ x → t.reg k = s.byteAt (s.idx.toNat + k.val)) ∧
      (∀ k : RegIdx, x < k → t.reg k = s.reg k) ∧
      t.idx.toNat = idxAfterTransfer s x ∧ t.pc = s.pc + 2 ∧ KeptBut [.regs, .idx] s t

/-- R242, R243, R244, R301: the memory forms with an address above 4095 enter `MemoryFault` with the lowest
such address, max(I, 4096), and their word recorded. -/
def Obligations.TransfersFaultAboveMemory : Prop :=
  ∀ (x : RegIdx) (s : State),
    (4095 < s.idx.toNat + 2 → ∃ t, exec (.ldBVx x) s = .next t ∧
      EnteredFault s t (.memoryFault (max s.idx.toNat 4096)) (some (BitVec.ofNat 16 (0xF033 + x.val * 256)))) ∧
    (4095 < s.idx.toNat + x.val → ∃ t, exec (.storeRegs x) s = .next t ∧
      EnteredFault s t (.memoryFault (max s.idx.toNat 4096)) (some (BitVec.ofNat 16 (0xF055 + x.val * 256)))) ∧
    (4095 < s.idx.toNat + x.val → ∃ t, exec (.loadRegs x) s = .next t ∧
      EnteredFault s t (.memoryFault (max s.idx.toNat 4096)) (some (BitVec.ofNat 16 (0xF065 + x.val * 256))))

/-- R243, R244: registers stored by `FX55` are read back by an `FX65` from the same address, whatever the
registers hold in between. -/
def Obligations.StoreThenLoadRestoresRegisters : Prop :=
  ∀ (x : RegIdx) (s : State), s.idx.toNat + x.val ≤ 4095 →
    ∃ t, exec (.storeRegs x) s = .next t ∧
      ∀ u : State, (∀ a, u.byteAt a = t.byteAt a) → u.idx = s.idx →
        ∃ v, exec (.loadRegs x) u = .next v ∧ ∀ k : RegIdx, k ≤ x → v.reg k = s.reg k

/-- R73: code is data. Two bytes stored by `FX55` are the word that a running step fetches and executes from
their address, with no other action between. -/
def Obligations.StoredWordIsExecuted : Prop :=
  ∀ (x : RegIdx) (s : State) (i : Instr), 1 ≤ x.val → s.idx.toNat + x.val ≤ 4095 →
    dispatch (hiLo (s.reg 0) (s.reg 1)) = .ok i →
    ∃ t, exec (.storeRegs x) s = .next t ∧
      ∀ u : State, (∀ a, u.byteAt a = t.byteAt a) → u.mode = .running → u.pc = s.idx → step u = exec i u

/-! ### Whole-machine rules -/

/-- R31, R32: an instruction changes no register but its destinations; VF is changed only as a flag by the
flag-writing instructions, or as a destination. That a faulting instruction writes none is D14 (log 16). -/
def Obligations.OnlyNamedRegistersWritten : Prop :=
  ∀ (i : Instr) (s t : State), exec i s = .next t → RegsKeptBut (writtenRegs i) s t

/-- R33, R38, R39, R40, R41, R68: an instruction that raises no fault changes no part of the state but those
that the spec says it writes. -/
def Obligations.OnlyNamedPartsWritten : Prop :=
  ∀ (i : Instr) (s t : State), faultOf i s = none → exec i s = .next t → KeptBut (writtenParts i s) s t

/-- R68: only `FX33` and `FX55` change memory, and only the bytes they store to. That a faulting
instruction stores nothing is D14 (log 16). -/
def Obligations.OnlyStoresChangeMemory : Prop :=
  ∀ (i : Instr) (s t : State) (a : Nat), exec i s = .next t → ¬ StoresTo i s a → t.byteAt a = s.byteAt a

/-- R5 (fixed at construction: D27, log 1): no transaction changes the parameters. -/
def Obligations.ParametersNeverChange : Prop :=
  ∀ (as : List Transaction) (s : State), (runHost as s).params = s.params

/-- R225, R39: a program does not observe the sound timer: the value of ST changes nothing that a step does
but, at most, ST itself. -/
def Obligations.SoundTimerUnobserved : Prop :=
  ∀ (s t : State) (b : Byte), step s = .next t →
    ∃ c, step { s with st := b } = .next { t with st := c }

/-- The invariant holds of every newly constructed machine (R331), the reset state among them. -/
def Obligations.ConstructedStateMeetsInv : Prop := (∀ p : Params, MachineInv (State.construct p)) ∧ MachineInv State.reset

/-- Every step keeps the invariant, from every state that meets it. -/
def Obligations.StepKeepsInv : Prop := ∀ s t : State, MachineInv s → step s = .next t → MachineInv t

/-- Every state that a host can reach from a construction, by transactions in any order, meets the
invariant. -/
def Obligations.ReachableStatesMeetInv : Prop := ∀ s : State, Reachable s → MachineInv s
end

