-- ==== Sys2Proof/Laws/State.lean ====
section
/-! SUPPORT. One lemma per field per update of the state, each true by rfl, so that no later proof unfolds a
record update. -/

namespace Sys2Proof.Machine

/-! ### poke -/

@[simp] theorem State.poke_params (s : State) (a : Nat) (b : Byte) : (s.poke a b).params = s.params := rfl
@[simp] theorem State.poke_mem (s : State) (a : Nat) (b : Byte) : (s.poke a b).mem = Memory.write s.params s.mem a b := rfl
@[simp] theorem State.poke_v (s : State) (a : Nat) (b : Byte) : (s.poke a b).v = s.v := rfl
@[simp] theorem State.poke_idx (s : State) (a : Nat) (b : Byte) : (s.poke a b).idx = s.idx := rfl
@[simp] theorem State.poke_pc (s : State) (a : Nat) (b : Byte) : (s.poke a b).pc = s.pc := rfl
@[simp] theorem State.poke_stack (s : State) (a : Nat) (b : Byte) : (s.poke a b).stack = s.stack := rfl
@[simp] theorem State.poke_dt (s : State) (a : Nat) (b : Byte) : (s.poke a b).dt = s.dt := rfl
@[simp] theorem State.poke_st (s : State) (a : Nat) (b : Byte) : (s.poke a b).st = s.st := rfl
@[simp] theorem State.poke_disp (s : State) (a : Nat) (b : Byte) : (s.poke a b).disp = s.disp := rfl
@[simp] theorem State.poke_keys (s : State) (a : Nat) (b : Byte) : (s.poke a b).keys = s.keys := rfl
@[simp] theorem State.poke_edge (s : State) (a : Nat) (b : Byte) : (s.poke a b).edge = s.edge := rfl
@[simp] theorem State.poke_mode (s : State) (a : Nat) (b : Byte) : (s.poke a b).mode = s.mode := rfl
@[simp] theorem State.poke_fault (s : State) (a : Nat) (b : Byte) : (s.poke a b).fault = s.fault := rfl
@[simp] theorem State.poke_draws (s : State) (a : Nat) (b : Byte) : (s.poke a b).draws = s.draws := rfl
@[simp] theorem State.poke_reg (s : State) (a : Nat) (b : Byte) (q : RegIdx) : (s.poke a b).reg q = s.reg q := rfl
@[simp] theorem State.poke_sp (s : State) (a : Nat) (b : Byte) : (s.poke a b).sp = s.sp := rfl

/-! ### setReg -/

@[simp] theorem State.setReg_params (s : State) (r : RegIdx) (b : Byte) : (s.setReg r b).params = s.params := rfl
@[simp] theorem State.setReg_mem (s : State) (r : RegIdx) (b : Byte) : (s.setReg r b).mem = s.mem := rfl
@[simp] theorem State.setReg_v (s : State) (r : RegIdx) (b : Byte) : (s.setReg r b).v = s.v.set r.val b r.isLt := rfl
@[simp] theorem State.setReg_idx (s : State) (r : RegIdx) (b : Byte) : (s.setReg r b).idx = s.idx := rfl
@[simp] theorem State.setReg_pc (s : State) (r : RegIdx) (b : Byte) : (s.setReg r b).pc = s.pc := rfl
@[simp] theorem State.setReg_stack (s : State) (r : RegIdx) (b : Byte) : (s.setReg r b).stack = s.stack := rfl
@[simp] theorem State.setReg_dt (s : State) (r : RegIdx) (b : Byte) : (s.setReg r b).dt = s.dt := rfl
@[simp] theorem State.setReg_st (s : State) (r : RegIdx) (b : Byte) : (s.setReg r b).st = s.st := rfl
@[simp] theorem State.setReg_disp (s : State) (r : RegIdx) (b : Byte) : (s.setReg r b).disp = s.disp := rfl
@[simp] theorem State.setReg_keys (s : State) (r : RegIdx) (b : Byte) : (s.setReg r b).keys = s.keys := rfl
@[simp] theorem State.setReg_edge (s : State) (r : RegIdx) (b : Byte) : (s.setReg r b).edge = s.edge := rfl
@[simp] theorem State.setReg_mode (s : State) (r : RegIdx) (b : Byte) : (s.setReg r b).mode = s.mode := rfl
@[simp] theorem State.setReg_fault (s : State) (r : RegIdx) (b : Byte) : (s.setReg r b).fault = s.fault := rfl
@[simp] theorem State.setReg_draws (s : State) (r : RegIdx) (b : Byte) : (s.setReg r b).draws = s.draws := rfl
@[simp] theorem State.setReg_byteAt (s : State) (r : RegIdx) (b : Byte) (addr : Nat) : (s.setReg r b).byteAt addr = s.byteAt addr := rfl
@[simp] theorem State.setReg_sp (s : State) (r : RegIdx) (b : Byte) : (s.setReg r b).sp = s.sp := rfl

/-! ### setRegs -/

@[simp] theorem State.setRegs_params (s : State) (bs : List Byte) : (s.setRegs bs).params = s.params := rfl
@[simp] theorem State.setRegs_mem (s : State) (bs : List Byte) : (s.setRegs bs).mem = s.mem := rfl
@[simp] theorem State.setRegs_idx (s : State) (bs : List Byte) : (s.setRegs bs).idx = s.idx := rfl
@[simp] theorem State.setRegs_pc (s : State) (bs : List Byte) : (s.setRegs bs).pc = s.pc := rfl
@[simp] theorem State.setRegs_stack (s : State) (bs : List Byte) : (s.setRegs bs).stack = s.stack := rfl
@[simp] theorem State.setRegs_dt (s : State) (bs : List Byte) : (s.setRegs bs).dt = s.dt := rfl
@[simp] theorem State.setRegs_st (s : State) (bs : List Byte) : (s.setRegs bs).st = s.st := rfl
@[simp] theorem State.setRegs_disp (s : State) (bs : List Byte) : (s.setRegs bs).disp = s.disp := rfl
@[simp] theorem State.setRegs_keys (s : State) (bs : List Byte) : (s.setRegs bs).keys = s.keys := rfl
@[simp] theorem State.setRegs_edge (s : State) (bs : List Byte) : (s.setRegs bs).edge = s.edge := rfl
@[simp] theorem State.setRegs_mode (s : State) (bs : List Byte) : (s.setRegs bs).mode = s.mode := rfl
@[simp] theorem State.setRegs_fault (s : State) (bs : List Byte) : (s.setRegs bs).fault = s.fault := rfl
@[simp] theorem State.setRegs_draws (s : State) (bs : List Byte) : (s.setRegs bs).draws = s.draws := rfl
@[simp] theorem State.setRegs_byteAt (s : State) (bs : List Byte) (addr : Nat) : (s.setRegs bs).byteAt addr = s.byteAt addr := rfl
@[simp] theorem State.setRegs_sp (s : State) (bs : List Byte) : (s.setRegs bs).sp = s.sp := rfl

/-! ### setIdx -/

@[simp] theorem State.setIdx_params (s : State) (w : Word) : (s.setIdx w).params = s.params := rfl
@[simp] theorem State.setIdx_mem (s : State) (w : Word) : (s.setIdx w).mem = s.mem := rfl
@[simp] theorem State.setIdx_v (s : State) (w : Word) : (s.setIdx w).v = s.v := rfl
@[simp] theorem State.setIdx_idx (s : State) (w : Word) : (s.setIdx w).idx = w := rfl
@[simp] theorem State.setIdx_pc (s : State) (w : Word) : (s.setIdx w).pc = s.pc := rfl
@[simp] theorem State.setIdx_stack (s : State) (w : Word) : (s.setIdx w).stack = s.stack := rfl
@[simp] theorem State.setIdx_dt (s : State) (w : Word) : (s.setIdx w).dt = s.dt := rfl
@[simp] theorem State.setIdx_st (s : State) (w : Word) : (s.setIdx w).st = s.st := rfl
@[simp] theorem State.setIdx_disp (s : State) (w : Word) : (s.setIdx w).disp = s.disp := rfl
@[simp] theorem State.setIdx_keys (s : State) (w : Word) : (s.setIdx w).keys = s.keys := rfl
@[simp] theorem State.setIdx_edge (s : State) (w : Word) : (s.setIdx w).edge = s.edge := rfl
@[simp] theorem State.setIdx_mode (s : State) (w : Word) : (s.setIdx w).mode = s.mode := rfl
@[simp] theorem State.setIdx_fault (s : State) (w : Word) : (s.setIdx w).fault = s.fault := rfl
@[simp] theorem State.setIdx_draws (s : State) (w : Word) : (s.setIdx w).draws = s.draws := rfl
@[simp] theorem State.setIdx_byteAt (s : State) (w : Word) (addr : Nat) : (s.setIdx w).byteAt addr = s.byteAt addr := rfl
@[simp] theorem State.setIdx_reg (s : State) (w : Word) (q : RegIdx) : (s.setIdx w).reg q = s.reg q := rfl
@[simp] theorem State.setIdx_sp (s : State) (w : Word) : (s.setIdx w).sp = s.sp := rfl

/-! ### setPc -/

@[simp] theorem State.setPc_params (s : State) (w : Word) : (s.setPc w).params = s.params := rfl
@[simp] theorem State.setPc_mem (s : State) (w : Word) : (s.setPc w).mem = s.mem := rfl
@[simp] theorem State.setPc_v (s : State) (w : Word) : (s.setPc w).v = s.v := rfl
@[simp] theorem State.setPc_idx (s : State) (w : Word) : (s.setPc w).idx = s.idx := rfl
@[simp] theorem State.setPc_pc (s : State) (w : Word) : (s.setPc w).pc = w := rfl
@[simp] theorem State.setPc_stack (s : State) (w : Word) : (s.setPc w).stack = s.stack := rfl
@[simp] theorem State.setPc_dt (s : State) (w : Word) : (s.setPc w).dt = s.dt := rfl
@[simp] theorem State.setPc_st (s : State) (w : Word) : (s.setPc w).st = s.st := rfl
@[simp] theorem State.setPc_disp (s : State) (w : Word) : (s.setPc w).disp = s.disp := rfl
@[simp] theorem State.setPc_keys (s : State) (w : Word) : (s.setPc w).keys = s.keys := rfl
@[simp] theorem State.setPc_edge (s : State) (w : Word) : (s.setPc w).edge = s.edge := rfl
@[simp] theorem State.setPc_mode (s : State) (w : Word) : (s.setPc w).mode = s.mode := rfl
@[simp] theorem State.setPc_fault (s : State) (w : Word) : (s.setPc w).fault = s.fault := rfl
@[simp] theorem State.setPc_draws (s : State) (w : Word) : (s.setPc w).draws = s.draws := rfl
@[simp] theorem State.setPc_byteAt (s : State) (w : Word) (addr : Nat) : (s.setPc w).byteAt addr = s.byteAt addr := rfl
@[simp] theorem State.setPc_reg (s : State) (w : Word) (q : RegIdx) : (s.setPc w).reg q = s.reg q := rfl
@[simp] theorem State.setPc_sp (s : State) (w : Word) : (s.setPc w).sp = s.sp := rfl

/-! ### advance -/

@[simp] theorem State.advance_params (s : State) : s.advance.params = s.params := rfl
@[simp] theorem State.advance_mem (s : State) : s.advance.mem = s.mem := rfl
@[simp] theorem State.advance_v (s : State) : s.advance.v = s.v := rfl
@[simp] theorem State.advance_idx (s : State) : s.advance.idx = s.idx := rfl
@[simp] theorem State.advance_pc (s : State) : s.advance.pc = s.pc + 2 := rfl
@[simp] theorem State.advance_stack (s : State) : s.advance.stack = s.stack := rfl
@[simp] theorem State.advance_dt (s : State) : s.advance.dt = s.dt := rfl
@[simp] theorem State.advance_st (s : State) : s.advance.st = s.st := rfl
@[simp] theorem State.advance_disp (s : State) : s.advance.disp = s.disp := rfl
@[simp] theorem State.advance_keys (s : State) : s.advance.keys = s.keys := rfl
@[simp] theorem State.advance_edge (s : State) : s.advance.edge = s.edge := rfl
@[simp] theorem State.advance_mode (s : State) : s.advance.mode = s.mode := rfl
@[simp] theorem State.advance_fault (s : State) : s.advance.fault = s.fault := rfl
@[simp] theorem State.advance_draws (s : State) : s.advance.draws = s.draws := rfl
@[simp] theorem State.advance_byteAt (s : State) (addr : Nat) : s.advance.byteAt addr = s.byteAt addr := rfl
@[simp] theorem State.advance_reg (s : State) (q : RegIdx) : s.advance.reg q = s.reg q := rfl
@[simp] theorem State.advance_sp (s : State) : s.advance.sp = s.sp := rfl

/-! ### skipIf -/

@[simp] theorem State.skipIf_params (s : State) (c : Bool) : (s.skipIf c).params = s.params := rfl
@[simp] theorem State.skipIf_mem (s : State) (c : Bool) : (s.skipIf c).mem = s.mem := rfl
@[simp] theorem State.skipIf_v (s : State) (c : Bool) : (s.skipIf c).v = s.v := rfl
@[simp] theorem State.skipIf_idx (s : State) (c : Bool) : (s.skipIf c).idx = s.idx := rfl
@[simp] theorem State.skipIf_pc (s : State) (c : Bool) : (s.skipIf c).pc = if c then s.pc + 4 else s.pc + 2 := rfl
@[simp] theorem State.skipIf_stack (s : State) (c : Bool) : (s.skipIf c).stack = s.stack := rfl
@[simp] theorem State.skipIf_dt (s : State) (c : Bool) : (s.skipIf c).dt = s.dt := rfl
@[simp] theorem State.skipIf_st (s : State) (c : Bool) : (s.skipIf c).st = s.st := rfl
@[simp] theorem State.skipIf_disp (s : State) (c : Bool) : (s.skipIf c).disp = s.disp := rfl
@[simp] theorem State.skipIf_keys (s : State) (c : Bool) : (s.skipIf c).keys = s.keys := rfl
@[simp] theorem State.skipIf_edge (s : State) (c : Bool) : (s.skipIf c).edge = s.edge := rfl
@[simp] theorem State.skipIf_mode (s : State) (c : Bool) : (s.skipIf c).mode = s.mode := rfl
@[simp] theorem State.skipIf_fault (s : State) (c : Bool) : (s.skipIf c).fault = s.fault := rfl
@[simp] theorem State.skipIf_draws (s : State) (c : Bool) : (s.skipIf c).draws = s.draws := rfl
@[simp] theorem State.skipIf_byteAt (s : State) (c : Bool) (addr : Nat) : (s.skipIf c).byteAt addr = s.byteAt addr := rfl
@[simp] theorem State.skipIf_reg (s : State) (c : Bool) (q : RegIdx) : (s.skipIf c).reg q = s.reg q := rfl
@[simp] theorem State.skipIf_sp (s : State) (c : Bool) : (s.skipIf c).sp = s.sp := rfl

/-! ### setDisp -/

@[simp] theorem State.setDisp_params (s : State) (d : Display) : (s.setDisp d).params = s.params := rfl
@[simp] theorem State.setDisp_mem (s : State) (d : Display) : (s.setDisp d).mem = s.mem := rfl
@[simp] theorem State.setDisp_v (s : State) (d : Display) : (s.setDisp d).v = s.v := rfl
@[simp] theorem State.setDisp_idx (s : State) (d : Display) : (s.setDisp d).idx = s.idx := rfl
@[simp] theorem State.setDisp_pc (s : State) (d : Display) : (s.setDisp d).pc = s.pc := rfl
@[simp] theorem State.setDisp_stack (s : State) (d : Display) : (s.setDisp d).stack = s.stack := rfl
@[simp] theorem State.setDisp_dt (s : State) (d : Display) : (s.setDisp d).dt = s.dt := rfl
@[simp] theorem State.setDisp_st (s : State) (d : Display) : (s.setDisp d).st = s.st := rfl
@[simp] theorem State.setDisp_disp (s : State) (d : Display) : (s.setDisp d).disp = d := rfl
@[simp] theorem State.setDisp_keys (s : State) (d : Display) : (s.setDisp d).keys = s.keys := rfl
@[simp] theorem State.setDisp_edge (s : State) (d : Display) : (s.setDisp d).edge = s.edge := rfl
@[simp] theorem State.setDisp_mode (s : State) (d : Display) : (s.setDisp d).mode = s.mode := rfl
@[simp] theorem State.setDisp_fault (s : State) (d : Display) : (s.setDisp d).fault = s.fault := rfl
@[simp] theorem State.setDisp_draws (s : State) (d : Display) : (s.setDisp d).draws = s.draws := rfl
@[simp] theorem State.setDisp_byteAt (s : State) (d : Display) (addr : Nat) : (s.setDisp d).byteAt addr = s.byteAt addr := rfl
@[simp] theorem State.setDisp_reg (s : State) (d : Display) (q : RegIdx) : (s.setDisp d).reg q = s.reg q := rfl
@[simp] theorem State.setDisp_sp (s : State) (d : Display) : (s.setDisp d).sp = s.sp := rfl

/-! ### setDt -/

@[simp] theorem State.setDt_params (s : State) (b : Byte) : (s.setDt b).params = s.params := rfl
@[simp] theorem State.setDt_mem (s : State) (b : Byte) : (s.setDt b).mem = s.mem := rfl
@[simp] theorem State.setDt_v (s : State) (b : Byte) : (s.setDt b).v = s.v := rfl
@[simp] theorem State.setDt_idx (s : State) (b : Byte) : (s.setDt b).idx = s.idx := rfl
@[simp] theorem State.setDt_pc (s : State) (b : Byte) : (s.setDt b).pc = s.pc := rfl
@[simp] theorem State.setDt_stack (s : State) (b : Byte) : (s.setDt b).stack = s.stack := rfl
@[simp] theorem State.setDt_dt (s : State) (b : Byte) : (s.setDt b).dt = b := rfl
@[simp] theorem State.setDt_st (s : State) (b : Byte) : (s.setDt b).st = s.st := rfl
@[simp] theorem State.setDt_disp (s : State) (b : Byte) : (s.setDt b).disp = s.disp := rfl
@[simp] theorem State.setDt_keys (s : State) (b : Byte) : (s.setDt b).keys = s.keys := rfl
@[simp] theorem State.setDt_edge (s : State) (b : Byte) : (s.setDt b).edge = s.edge := rfl
@[simp] theorem State.setDt_mode (s : State) (b : Byte) : (s.setDt b).mode = s.mode := rfl
@[simp] theorem State.setDt_fault (s : State) (b : Byte) : (s.setDt b).fault = s.fault := rfl
@[simp] theorem State.setDt_draws (s : State) (b : Byte) : (s.setDt b).draws = s.draws := rfl
@[simp] theorem State.setDt_byteAt (s : State) (b : Byte) (addr : Nat) : (s.setDt b).byteAt addr = s.byteAt addr := rfl
@[simp] theorem State.setDt_reg (s : State) (b : Byte) (q : RegIdx) : (s.setDt b).reg q = s.reg q := rfl
@[simp] theorem State.setDt_sp (s : State) (b : Byte) : (s.setDt b).sp = s.sp := rfl

/-! ### setSt -/

@[simp] theorem State.setSt_params (s : State) (b : Byte) : (s.setSt b).params = s.params := rfl
@[simp] theorem State.setSt_mem (s : State) (b : Byte) : (s.setSt b).mem = s.mem := rfl
@[simp] theorem State.setSt_v (s : State) (b : Byte) : (s.setSt b).v = s.v := rfl
@[simp] theorem State.setSt_idx (s : State) (b : Byte) : (s.setSt b).idx = s.idx := rfl
@[simp] theorem State.setSt_pc (s : State) (b : Byte) : (s.setSt b).pc = s.pc := rfl
@[simp] theorem State.setSt_stack (s : State) (b : Byte) : (s.setSt b).stack = s.stack := rfl
@[simp] theorem State.setSt_dt (s : State) (b : Byte) : (s.setSt b).dt = s.dt := rfl
@[simp] theorem State.setSt_st (s : State) (b : Byte) : (s.setSt b).st = b := rfl
@[simp] theorem State.setSt_disp (s : State) (b : Byte) : (s.setSt b).disp = s.disp := rfl
@[simp] theorem State.setSt_keys (s : State) (b : Byte) : (s.setSt b).keys = s.keys := rfl
@[simp] theorem State.setSt_edge (s : State) (b : Byte) : (s.setSt b).edge = s.edge := rfl
@[simp] theorem State.setSt_mode (s : State) (b : Byte) : (s.setSt b).mode = s.mode := rfl
@[simp] theorem State.setSt_fault (s : State) (b : Byte) : (s.setSt b).fault = s.fault := rfl
@[simp] theorem State.setSt_draws (s : State) (b : Byte) : (s.setSt b).draws = s.draws := rfl
@[simp] theorem State.setSt_byteAt (s : State) (b : Byte) (addr : Nat) : (s.setSt b).byteAt addr = s.byteAt addr := rfl
@[simp] theorem State.setSt_reg (s : State) (b : Byte) (q : RegIdx) : (s.setSt b).reg q = s.reg q := rfl
@[simp] theorem State.setSt_sp (s : State) (b : Byte) : (s.setSt b).sp = s.sp := rfl

/-! ### clearEdges -/

@[simp] theorem State.clearEdges_params (s : State) : s.clearEdges.params = s.params := rfl
@[simp] theorem State.clearEdges_mem (s : State) : s.clearEdges.mem = s.mem := rfl
@[simp] theorem State.clearEdges_v (s : State) : s.clearEdges.v = s.v := rfl
@[simp] theorem State.clearEdges_idx (s : State) : s.clearEdges.idx = s.idx := rfl
@[simp] theorem State.clearEdges_pc (s : State) : s.clearEdges.pc = s.pc := rfl
@[simp] theorem State.clearEdges_stack (s : State) : s.clearEdges.stack = s.stack := rfl
@[simp] theorem State.clearEdges_dt (s : State) : s.clearEdges.dt = s.dt := rfl
@[simp] theorem State.clearEdges_st (s : State) : s.clearEdges.st = s.st := rfl
@[simp] theorem State.clearEdges_disp (s : State) : s.clearEdges.disp = s.disp := rfl
@[simp] theorem State.clearEdges_keys (s : State) : s.clearEdges.keys = s.keys := rfl
@[simp] theorem State.clearEdges_edge (s : State) : s.clearEdges.edge = Vector.replicate 16 false := rfl
@[simp] theorem State.clearEdges_mode (s : State) : s.clearEdges.mode = s.mode := rfl
@[simp] theorem State.clearEdges_fault (s : State) : s.clearEdges.fault = s.fault := rfl
@[simp] theorem State.clearEdges_draws (s : State) : s.clearEdges.draws = s.draws := rfl
@[simp] theorem State.clearEdges_byteAt (s : State) (addr : Nat) : s.clearEdges.byteAt addr = s.byteAt addr := rfl
@[simp] theorem State.clearEdges_reg (s : State) (q : RegIdx) : s.clearEdges.reg q = s.reg q := rfl
@[simp] theorem State.clearEdges_sp (s : State) : s.clearEdges.sp = s.sp := rfl

/-! ### setMode -/

@[simp] theorem State.setMode_params (s : State) (m : Mode) : (s.setMode m).params = s.params := rfl
@[simp] theorem State.setMode_mem (s : State) (m : Mode) : (s.setMode m).mem = s.mem := rfl
@[simp] theorem State.setMode_v (s : State) (m : Mode) : (s.setMode m).v = s.v := rfl
@[simp] theorem State.setMode_idx (s : State) (m : Mode) : (s.setMode m).idx = s.idx := rfl
@[simp] theorem State.setMode_pc (s : State) (m : Mode) : (s.setMode m).pc = s.pc := rfl
@[simp] theorem State.setMode_stack (s : State) (m : Mode) : (s.setMode m).stack = s.stack := rfl
@[simp] theorem State.setMode_dt (s : State) (m : Mode) : (s.setMode m).dt = s.dt := rfl
@[simp] theorem State.setMode_st (s : State) (m : Mode) : (s.setMode m).st = s.st := rfl
@[simp] theorem State.setMode_disp (s : State) (m : Mode) : (s.setMode m).disp = s.disp := rfl
@[simp] theorem State.setMode_keys (s : State) (m : Mode) : (s.setMode m).keys = s.keys := rfl
@[simp] theorem State.setMode_edge (s : State) (m : Mode) : (s.setMode m).edge = s.edge := rfl
@[simp] theorem State.setMode_mode (s : State) (m : Mode) : (s.setMode m).mode = m := rfl
@[simp] theorem State.setMode_fault (s : State) (m : Mode) : (s.setMode m).fault = s.fault := rfl
@[simp] theorem State.setMode_draws (s : State) (m : Mode) : (s.setMode m).draws = s.draws := rfl
@[simp] theorem State.setMode_byteAt (s : State) (m : Mode) (addr : Nat) : (s.setMode m).byteAt addr = s.byteAt addr := rfl
@[simp] theorem State.setMode_reg (s : State) (m : Mode) (q : RegIdx) : (s.setMode m).reg q = s.reg q := rfl
@[simp] theorem State.setMode_sp (s : State) (m : Mode) : (s.setMode m).sp = s.sp := rfl

/-! ### countDraw -/

@[simp] theorem State.countDraw_params (s : State) : s.countDraw.params = s.params := rfl
@[simp] theorem State.countDraw_mem (s : State) : s.countDraw.mem = s.mem := rfl
@[simp] theorem State.countDraw_v (s : State) : s.countDraw.v = s.v := rfl
@[simp] theorem State.countDraw_idx (s : State) : s.countDraw.idx = s.idx := rfl
@[simp] theorem State.countDraw_pc (s : State) : s.countDraw.pc = s.pc := rfl
@[simp] theorem State.countDraw_stack (s : State) : s.countDraw.stack = s.stack := rfl
@[simp] theorem State.countDraw_dt (s : State) : s.countDraw.dt = s.dt := rfl
@[simp] theorem State.countDraw_st (s : State) : s.countDraw.st = s.st := rfl
@[simp] theorem State.countDraw_disp (s : State) : s.countDraw.disp = s.disp := rfl
@[simp] theorem State.countDraw_keys (s : State) : s.countDraw.keys = s.keys := rfl
@[simp] theorem State.countDraw_edge (s : State) : s.countDraw.edge = s.edge := rfl
@[simp] theorem State.countDraw_mode (s : State) : s.countDraw.mode = s.mode := rfl
@[simp] theorem State.countDraw_fault (s : State) : s.countDraw.fault = s.fault := rfl
@[simp] theorem State.countDraw_draws (s : State) : s.countDraw.draws = s.draws + 1 := rfl
@[simp] theorem State.countDraw_byteAt (s : State) (addr : Nat) : s.countDraw.byteAt addr = s.byteAt addr := rfl
@[simp] theorem State.countDraw_reg (s : State) (q : RegIdx) : s.countDraw.reg q = s.reg q := rfl
@[simp] theorem State.countDraw_sp (s : State) : s.countDraw.sp = s.sp := rfl

/-! ### enterFault -/

@[simp] theorem State.enterFault_params (s : State) (k : FaultKind) (o : Option Word) : (s.enterFault k o).params = s.params := rfl
@[simp] theorem State.enterFault_mem (s : State) (k : FaultKind) (o : Option Word) : (s.enterFault k o).mem = s.mem := rfl
@[simp] theorem State.enterFault_v (s : State) (k : FaultKind) (o : Option Word) : (s.enterFault k o).v = s.v := rfl
@[simp] theorem State.enterFault_idx (s : State) (k : FaultKind) (o : Option Word) : (s.enterFault k o).idx = s.idx := rfl
@[simp] theorem State.enterFault_pc (s : State) (k : FaultKind) (o : Option Word) : (s.enterFault k o).pc = s.pc := rfl
@[simp] theorem State.enterFault_stack (s : State) (k : FaultKind) (o : Option Word) : (s.enterFault k o).stack = s.stack := rfl
@[simp] theorem State.enterFault_dt (s : State) (k : FaultKind) (o : Option Word) : (s.enterFault k o).dt = s.dt := rfl
@[simp] theorem State.enterFault_st (s : State) (k : FaultKind) (o : Option Word) : (s.enterFault k o).st = s.st := rfl
@[simp] theorem State.enterFault_disp (s : State) (k : FaultKind) (o : Option Word) : (s.enterFault k o).disp = s.disp := rfl
@[simp] theorem State.enterFault_keys (s : State) (k : FaultKind) (o : Option Word) : (s.enterFault k o).keys = s.keys := rfl
@[simp] theorem State.enterFault_edge (s : State) (k : FaultKind) (o : Option Word) : (s.enterFault k o).edge = s.edge := rfl
@[simp] theorem State.enterFault_mode (s : State) (k : FaultKind) (o : Option Word) : (s.enterFault k o).mode = .faulted := rfl
@[simp] theorem State.enterFault_fault (s : State) (k : FaultKind) (o : Option Word) : (s.enterFault k o).fault = some ⟨k, s.pc, o⟩ := rfl
@[simp] theorem State.enterFault_draws (s : State) (k : FaultKind) (o : Option Word) : (s.enterFault k o).draws = s.draws := rfl
@[simp] theorem State.enterFault_byteAt (s : State) (k : FaultKind) (o : Option Word) (addr : Nat) : (s.enterFault k o).byteAt addr = s.byteAt addr := rfl
@[simp] theorem State.enterFault_reg (s : State) (k : FaultKind) (o : Option Word) (q : RegIdx) : (s.enterFault k o).reg q = s.reg q := rfl
@[simp] theorem State.enterFault_sp (s : State) (k : FaultKind) (o : Option Word) : (s.enterFault k o).sp = s.sp := rfl

end Sys2Proof.Machine
end

