-- ==== Sys2Proof/Laws/Memory.lean ====
section
/-! SUPPORT. Memory: reading after writing, the canonical form, and the closed forms of the byte-sequence
operations. -/

namespace Sys2Proof.Machine

/-! ### Reading after writing -/

theorem Memory.lookup_cell (d : Host.Cell) (m : List Host.Cell) (a : Nat) :
    List.lookup a (d :: m) = if a = d.1 then some d.2 else m.lookup a := by
  obtain ⟨k, b⟩ := d
  by_cases h : a = k
  · simp [h]
  · have hb : (a == k) = false := beq_false_of_ne h
    simp [List.lookup, hb, h]

theorem Memory.lookup_insert (c : Host.Cell) (m : List Host.Cell) (a : Nat)
    (h : ∀ d ∈ m, d.1 ≠ c.1) :
    (Memory.insert c m).lookup a = if a = c.1 then some c.2 else m.lookup a := by
  induction m with
  | nil => simp [Memory.insert, Memory.lookup_cell]
  | cons d rest ih =>
    have hd : d.1 ≠ c.1 := h d (by simp)
    have ihr := ih fun e he => h e (List.mem_cons_of_mem _ he)
    by_cases hlt : c.1 < d.1
    · simp [Memory.insert, Memory.lookup_cell, hlt]
    · by_cases had : a = d.1
      · have : a ≠ c.1 := by omega
        simp [Memory.insert, Memory.lookup_cell, hlt, had, hd]
      · simp [Memory.insert, Memory.lookup_cell, hlt, had, ihr]

theorem Memory.lookup_others_same (m : List Host.Cell) (a : Nat) :
    (m.filter fun c => c.1 != a).lookup a = none := by
  induction m with
  | nil => rfl
  | cons d rest ih =>
    by_cases hd : d.1 = a
    · rw [List.filter_cons_of_neg (by simp [hd])]; exact ih
    · rw [List.filter_cons_of_pos (by simp [hd]), Memory.lookup_cell, if_neg fun h => hd h.symm]
      exact ih

theorem Memory.lookup_others_ne (m : List Host.Cell) {a c : Nat} (h : c ≠ a) :
    (m.filter fun d => d.1 != a).lookup c = m.lookup c := by
  induction m with
  | nil => rfl
  | cons d rest ih =>
    by_cases hd : d.1 = a
    · rw [List.filter_cons_of_neg (by simp [hd]), Memory.lookup_cell, if_neg fun e => h (e.trans hd)]
      exact ih
    · rw [List.filter_cons_of_pos (by simp [hd]), Memory.lookup_cell, Memory.lookup_cell, ih]

theorem Memory.others_ne {m : List Host.Cell} {a : Nat} :
    ∀ d ∈ m.filter (fun c => c.1 != a), d.1 ≠ a := fun d hd => by
  have := (List.mem_filter.mp hd).2
  simpa only [bne_iff_ne] using this

/-- A read after a write to the same address gives the byte written. -/
theorem Memory.read_write_same (p : Params) (m : List Host.Cell) (a : Nat) (b : Byte) :
    Memory.read p (Memory.write p m a b) a = b := by
  unfold Memory.read Memory.write
  by_cases hb : b = resetByte p a
  · simp [hb, Memory.lookup_others_same]
  · simp [hb, Memory.lookup_insert (a, b) _ a Memory.others_ne]

/-- A write leaves every other address alone. -/
theorem Memory.read_write_ne (p : Params) (m : List Host.Cell) {a c : Nat} (b : Byte) (h : c ≠ a) :
    Memory.read p (Memory.write p m a b) c = Memory.read p m c := by
  unfold Memory.read Memory.write
  by_cases hb : b = resetByte p a
  · simp [hb, Memory.lookup_others_ne m h]
  · simp [hb, Memory.lookup_insert (a, b) _ c Memory.others_ne, Memory.lookup_others_ne m h, h]

/-! ### The canonical form -/

theorem Memory.mem_insert (c d : Host.Cell) (m : List Host.Cell) :
    d ∈ Memory.insert c m ↔ d = c ∨ d ∈ m := by
  induction m with
  | nil => simp [Memory.insert]
  | cons e rest ih =>
    by_cases h : c.1 < e.1
    · simp [Memory.insert, h]
    · simp [Memory.insert, h, ih, or_left_comm]

theorem Memory.pairwise_insert (c : Host.Cell) (m : List Host.Cell)
    (hm : m.Pairwise fun d e => d.1 < e.1) (h : ∀ d ∈ m, d.1 ≠ c.1) :
    (Memory.insert c m).Pairwise fun d e => d.1 < e.1 := by
  induction m with
  | nil => simp [Memory.insert]
  | cons e rest ih =>
    have he : e.1 ≠ c.1 := h e (by simp)
    rw [List.pairwise_cons] at hm
    by_cases hlt : c.1 < e.1
    · simp only [Memory.insert, hlt, if_true, List.pairwise_cons]
      refine ⟨fun d hd => ?_, hm.1, hm.2⟩
      rcases List.mem_cons.mp hd with rfl | hd
      · exact hlt
      · exact hlt.trans (hm.1 d hd)
    · simp only [Memory.insert, hlt, if_false, List.pairwise_cons]
      refine ⟨fun d hd => ?_, ih hm.2 fun d hd => h d (List.mem_cons_of_mem _ hd)⟩
      rcases (Memory.mem_insert c d rest).mp hd with rfl | hd
      · omega
      · exact hm.1 d hd

theorem Memory.wf_iff (p : Params) (m : List Host.Cell) :
    Memory.wf p m = true ↔
      (m.Pairwise fun c d => c.1 < d.1) ∧ ∀ c ∈ m, c.1 < MEM_SIZE ∧ c.2 ≠ resetByte p c.1 := by
  simp [Memory.wf]

/-- Every write in 0..4095 keeps the canonical form. -/
theorem Memory.write_wf (p : Params) (m : List Host.Cell) {a : Nat} (b : Byte)
    (h : Memory.wf p m = true) (ha : a < MEM_SIZE) : Memory.wf p (Memory.write p m a b) = true := by
  rw [Memory.wf_iff] at h ⊢
  have hp : (m.filter fun c => c.1 != a).Pairwise fun c d => c.1 < d.1 := h.1.filter _
  unfold Memory.write
  by_cases hb : b = resetByte p a
  · simp only [hb, if_true]
    exact ⟨hp, fun c hc => h.2 c (List.mem_filter.mp hc).1⟩
  · simp only [hb, if_false]
    refine ⟨Memory.pairwise_insert _ _ hp Memory.others_ne, fun c hc => ?_⟩
    rcases (Memory.mem_insert _ c _).mp hc with rfl | hc
    · exact ⟨ha, hb⟩
    · exact h.2 c (List.mem_filter.mp hc).1

/-- Memory with nothing listed is in the canonical form. -/
theorem Memory.wf_nil (p : Params) : Memory.wf p [] = true := rfl

/-! ### One byte of a state -/

@[simp] theorem State.byteAt_poke_same (s : State) (a : Nat) (b : Byte) : (s.poke a b).byteAt a = b :=
  Memory.read_write_same s.params s.mem a b

theorem State.byteAt_poke_ne (s : State) {a c : Nat} (b : Byte) (h : c ≠ a) :
    (s.poke a b).byteAt c = s.byteAt c :=
  Memory.read_write_ne s.params s.mem b h

theorem State.byteAt_poke (s : State) (a c : Nat) (b : Byte) :
    (s.poke a b).byteAt c = if c = a then b else s.byteAt c := by
  by_cases h : c = a
  · simp [h]
  · simp [h, State.byteAt_poke_ne s b h]

/-! ### Byte sequences -/

/-- Everything but memory is kept by a sequence of writes. -/
theorem State.pokeAll_eq (s : State) (a : Nat) (bs : List Byte) :
    s.pokeAll a bs = { s with mem := (s.pokeAll a bs).mem } := by
  induction bs generalizing s a with
  | nil => rfl
  | cons b bs ih =>
    show (s.poke a b).pokeAll (a + 1) bs = _
    rw [ih]
    rfl

@[simp] theorem State.pokeAll_params (s : State) (a : Nat) (bs : List Byte) :
    (s.pokeAll a bs).params = s.params := by rw [State.pokeAll_eq]
@[simp] theorem State.pokeAll_v (s : State) (a : Nat) (bs : List Byte) :
    (s.pokeAll a bs).v = s.v := by rw [State.pokeAll_eq]
@[simp] theorem State.pokeAll_reg (s : State) (a : Nat) (bs : List Byte) (q : RegIdx) :
    (s.pokeAll a bs).reg q = s.reg q := by rw [State.reg, State.pokeAll_v]; rfl
@[simp] theorem State.pokeAll_idx (s : State) (a : Nat) (bs : List Byte) :
    (s.pokeAll a bs).idx = s.idx := by rw [State.pokeAll_eq]
@[simp] theorem State.pokeAll_pc (s : State) (a : Nat) (bs : List Byte) :
    (s.pokeAll a bs).pc = s.pc := by rw [State.pokeAll_eq]
@[simp] theorem State.pokeAll_stack (s : State) (a : Nat) (bs : List Byte) :
    (s.pokeAll a bs).stack = s.stack := by rw [State.pokeAll_eq]
@[simp] theorem State.pokeAll_dt (s : State) (a : Nat) (bs : List Byte) :
    (s.pokeAll a bs).dt = s.dt := by rw [State.pokeAll_eq]
@[simp] theorem State.pokeAll_st (s : State) (a : Nat) (bs : List Byte) :
    (s.pokeAll a bs).st = s.st := by rw [State.pokeAll_eq]
@[simp] theorem State.pokeAll_disp (s : State) (a : Nat) (bs : List Byte) :
    (s.pokeAll a bs).disp = s.disp := by rw [State.pokeAll_eq]
@[simp] theorem State.pokeAll_keys (s : State) (a : Nat) (bs : List Byte) :
    (s.pokeAll a bs).keys = s.keys := by rw [State.pokeAll_eq]
@[simp] theorem State.pokeAll_edge (s : State) (a : Nat) (bs : List Byte) :
    (s.pokeAll a bs).edge = s.edge := by rw [State.pokeAll_eq]
@[simp] theorem State.pokeAll_mode (s : State) (a : Nat) (bs : List Byte) :
    (s.pokeAll a bs).mode = s.mode := by rw [State.pokeAll_eq]
@[simp] theorem State.pokeAll_fault (s : State) (a : Nat) (bs : List Byte) :
    (s.pokeAll a bs).fault = s.fault := by rw [State.pokeAll_eq]
@[simp] theorem State.pokeAll_draws (s : State) (a : Nat) (bs : List Byte) :
    (s.pokeAll a bs).draws = s.draws := by rw [State.pokeAll_eq]
@[simp] theorem State.pokeAll_sp (s : State) (a : Nat) (bs : List Byte) :
    (s.pokeAll a bs).sp = s.sp := by rw [State.sp, State.pokeAll_stack]; rfl

/-- A sequence of writes at `a`: the k-th address holds the k-th byte, every other address its own. -/
theorem State.byteAt_pokeAll (s : State) (a c : Nat) (bs : List Byte) :
    (s.pokeAll a bs).byteAt c =
      if a ≤ c ∧ c < a + bs.length then bs.getD (c - a) 0 else s.byteAt c := by
  induction bs generalizing s a with
  | nil => simp [State.pokeAll]
  | cons b bs ih =>
    show ((s.poke a b).pokeAll (a + 1) bs).byteAt c = _
    rw [ih, State.byteAt_poke]
    rcases lt_trichotomy c a with h | h | h
    · rw [if_neg (by omega), if_neg (by omega), if_neg (by simp; omega)]
    · subst h
      rw [if_neg (by omega), if_pos rfl, if_pos (by simp)]
      simp
    · obtain ⟨d, rfl⟩ : ∃ d, c = a + 1 + d := ⟨c - (a + 1), by omega⟩
      by_cases hd : d < bs.length
      · rw [if_pos (by omega), if_pos (by simp; omega), show a + 1 + d - a = d + 1 by omega]
        simp
      · rw [if_neg (by omega), if_neg (by omega), if_neg (by simp; omega)]

/-- A sequence of writes inside 0..4095 keeps the canonical form. -/
theorem State.pokeAll_wf (s : State) (a : Nat) (bs : List Byte)
    (h : Memory.wf s.params s.mem = true) (ha : a + bs.length ≤ MEM_SIZE) :
    Memory.wf s.params (s.pokeAll a bs).mem = true := by
  induction bs generalizing s a with
  | nil => exact h
  | cons b bs ih =>
    have hl : a + bs.length + 1 ≤ MEM_SIZE := by simpa [Nat.add_assoc] using ha
    exact ih (s.poke a b) (a + 1) (Memory.write_wf _ _ b h (by omega)) (by omega)

theorem memRead_eq (a : Nat) (s : State) :
    memRead a s = if a < MEM_SIZE then .ok (s.byteAt a) else .error (.memoryFault a) := rfl

theorem memWrite_eq (a : Nat) (b : Byte) (s : State) :
    memWrite a b s = if a < MEM_SIZE then .ok (s.poke a b) else .error (.memoryFault a) := rfl

/-- All that `storeBytes` can do: every address in range, and the bytes are written; else the lowest
address out of range is reported. -/
theorem storeBytes_eq (a : Nat) (bs : List Byte) (s : State) :
    storeBytes a bs s =
      if bs = [] ∨ a + bs.length ≤ MEM_SIZE then .ok (s.pokeAll a bs)
      else .error (.memoryFault (max a MEM_SIZE)) := by
  induction bs generalizing s a with
  | nil => simp [storeBytes, State.pokeAll]
  | cons b bs ih =>
    by_cases ha : a < MEM_SIZE
    · simp only [storeBytes, memWrite, ha, if_true, ih, State.pokeAll]
      by_cases hb : bs = []
      · subst hb
        rw [if_pos (Or.inl rfl), if_pos (Or.inr (by simp at ha ⊢; omega))]
      · by_cases hr : a + (bs.length + 1) ≤ MEM_SIZE
        · rw [if_pos (Or.inr (by omega)), if_pos (Or.inr (by simpa using hr))]
        · have hmax : max (a + 1) MEM_SIZE = max a MEM_SIZE := by omega
          rw [if_neg (by simp [hb]; omega), if_neg (by simp; omega), hmax]
    · have hmax : max a MEM_SIZE = a := by omega
      rw [if_neg (by simp; omega), hmax]
      simp [storeBytes, memWrite, ha]

/-- The bytes that memory holds at `a`, `a+1`, …. -/
def State.bytesAt (s : State) (a n : Nat) : List Byte := (List.range n).map fun k => s.byteAt (a + k)

/-- All that `loadBytes` can do: every address in range, and the bytes are answered; else the lowest
address out of range is reported. -/
theorem loadBytes_eq (a n : Nat) (s : State) :
    loadBytes a n s =
      if n = 0 ∨ a + n ≤ MEM_SIZE then .ok (s.bytesAt a n)
      else .error (.memoryFault (max a MEM_SIZE)) := by
  induction n generalizing a with
  | zero => simp [loadBytes, State.bytesAt]
  | succ n ih =>
    by_cases ha : a < MEM_SIZE
    · simp only [loadBytes, memRead, ha, if_true, ih]
      by_cases hr : a + (n + 1) ≤ MEM_SIZE
      · rw [if_pos (Or.inr (by omega)), if_pos (Or.inr hr)]
        simp [State.bytesAt, List.range_succ_eq_map, Nat.add_assoc, Nat.add_comm 1]
      · by_cases hn : n = 0
        · omega
        · have hmax : max (a + 1) MEM_SIZE = max a MEM_SIZE := by omega
          rw [if_neg (by omega), if_neg (by omega), hmax]
    · have hmax : max a MEM_SIZE = a := by omega
      rw [if_neg (by omega), hmax]
      simp [loadBytes, memRead, ha]

@[simp] theorem State.bytesAt_length (s : State) (a n : Nat) : (s.bytesAt a n).length = n := by
  simp [State.bytesAt]

theorem State.bytesAt_getD (s : State) (a n k : Nat) (h : k < n) (d : Byte) :
    (s.bytesAt a n).getD k d = s.byteAt (a + k) := by
  simp [State.bytesAt, List.getD, h]

/-- All that a fetch can do (R64, R65). -/
theorem fetch_eq (s : State) :
    fetch s =
      if s.pc.toNat ≤ 4094 then .ok (hiLo (s.byteAt s.pc.toNat) (s.byteAt (s.pc.toNat + 1)))
      else .error (.memoryFault (max s.pc.toNat MEM_SIZE)) := by
  unfold fetch memRead
  have hm : MEM_SIZE = 4096 := rfl
  by_cases h1 : s.pc.toNat ≤ 4094
  · have h2 : s.pc.toNat < MEM_SIZE := by omega
    have h3 : s.pc.toNat + 1 < MEM_SIZE := by omega
    simp only [h1, h2, h3, if_true]
  · by_cases h2 : s.pc.toNat < MEM_SIZE
    · have h3 : ¬ s.pc.toNat + 1 < MEM_SIZE := by omega
      have hmax : max s.pc.toNat MEM_SIZE = s.pc.toNat + 1 := by omega
      simp only [h1, h2, h3, if_true, if_false, hmax]
    · have hmax : max s.pc.toNat MEM_SIZE = s.pc.toNat := by omega
      simp only [h1, h2, if_false, hmax]

end Sys2Proof.Machine
end

