-- ==== Sys2Proof/Laws/Ops.lean ====
section
/-! SUPPORT. What each shared operation over registers, stack, flags and keys can do. -/

namespace Sys2Proof.Machine

/-! ### Registers -/

theorem State.reg_setReg (s : State) (r q : RegIdx) (b : Byte) :
    (s.setReg r b).reg q = if q = r then b else s.reg q := by
  simp only [State.reg, State.setReg, Vector.get_eq_getElem, Vector.getElem_set, Fin.ext_iff, eq_comm]

@[simp] theorem State.reg_setReg_same (s : State) (r : RegIdx) (b : Byte) : (s.setReg r b).reg r = b := by
  simp [State.reg_setReg]

theorem State.reg_setReg_ne (s : State) {r q : RegIdx} (b : Byte) (h : q ≠ r) :
    (s.setReg r b).reg q = s.reg q := by
  simp [State.reg_setReg, h]

@[simp] theorem State.reg_setRegs (s : State) (bs : List Byte) (q : RegIdx) :
    (s.setRegs bs).reg q = bs.getD q.val (s.reg q) := by
  simp [State.setRegs, State.reg, Vector.get_eq_getElem]

theorem regRange_length (x : RegIdx) (s : State) : (regRange x s).length = x.val + 1 := by
  simp [regRange]

theorem regRange_getD (x : RegIdx) (s : State) (k : RegIdx) (h : k ≤ x) (d : Byte) :
    (regRange x s).getD k.val d = s.reg k := by
  have hk : k.val < x.val + 1 := Nat.lt_succ_of_le h
  simp [regRange, State.reg, Vector.get_eq_getElem, List.getD, hk]

theorem bcdDigits_length (b : Byte) : (bcdDigits b).length = 3 := rfl

/-! ### The stack -/

/-- All that a push can do (R38). -/
theorem push_eq (w : Word) (s : State) :
    push w s =
      if s.sp < STACK_DEPTH then .ok { s with stack := s.stack ++ [w] } else .error (.stackFault .overflow) := rfl

/-- A pop of an empty stack (R38). -/
theorem pop_empty (s : State) (h : s.stack = []) : pop s = .error (.stackFault .underflow) := by
  simp [pop, h]

/-- A pop of a stack with a top (R38). -/
theorem pop_top (s : State) (below : List Word) (w : Word) (h : s.stack = below ++ [w]) :
    pop s = .ok (w, { s with stack := below }) := by
  simp [pop, h]

/-- All that a pop can do (R38). -/
theorem pop_cases (s : State) :
    (s.stack = [] ∧ pop s = .error (.stackFault .underflow)) ∨
      ∃ below w, s.stack = below ++ [w] ∧ pop s = .ok (w, { s with stack := below }) := by
  rcases List.eq_nil_or_concat s.stack with h | ⟨below, w, h⟩
  · exact .inl ⟨h, pop_empty s h⟩
  · exact .inr ⟨below, w, by simpa using h, pop_top s below w (by simpa using h)⟩

/-! ### Result and flag -/

theorem writeSumAndFlag_reg (x q : RegIdx) (r : Byte) (f : Bool) (s : State) :
    (writeSumAndFlag x r f s).reg q = if q = regF then flagByte f else if q = x then r else s.reg q := by
  unfold writeSumAndFlag
  split <;> simp [resultThenFlag, State.reg_setReg]

theorem writeResultAndFlag_reg (x q : RegIdx) (r : Byte) (f : Bool) (s : State) :
    (writeResultAndFlag x r f s).reg q =
      match s.params.vfOrder with
      | .docOrder => if q = x then r else if q = regF then flagByte f else s.reg q
      | .flagLast => if q = regF then flagByte f else if q = x then r else s.reg q := by
  unfold writeResultAndFlag
  cases s.params.vfOrder <;> simp [resultThenFlag, flagThenResult, State.reg_setReg]

@[simp] theorem writeSumAndFlag_params (x : RegIdx) (r : Byte) (f : Bool) (s : State) :
    (writeSumAndFlag x r f s).params = s.params := by unfold writeSumAndFlag; split <;> rfl
@[simp] theorem writeSumAndFlag_mem (x : RegIdx) (r : Byte) (f : Bool) (s : State) :
    (writeSumAndFlag x r f s).mem = s.mem := by unfold writeSumAndFlag; split <;> rfl
@[simp] theorem writeSumAndFlag_idx (x : RegIdx) (r : Byte) (f : Bool) (s : State) :
    (writeSumAndFlag x r f s).idx = s.idx := by unfold writeSumAndFlag; split <;> rfl
@[simp] theorem writeSumAndFlag_pc (x : RegIdx) (r : Byte) (f : Bool) (s : State) :
    (writeSumAndFlag x r f s).pc = s.pc := by unfold writeSumAndFlag; split <;> rfl
@[simp] theorem writeSumAndFlag_stack (x : RegIdx) (r : Byte) (f : Bool) (s : State) :
    (writeSumAndFlag x r f s).stack = s.stack := by unfold writeSumAndFlag; split <;> rfl
@[simp] theorem writeSumAndFlag_dt (x : RegIdx) (r : Byte) (f : Bool) (s : State) :
    (writeSumAndFlag x r f s).dt = s.dt := by unfold writeSumAndFlag; split <;> rfl
@[simp] theorem writeSumAndFlag_st (x : RegIdx) (r : Byte) (f : Bool) (s : State) :
    (writeSumAndFlag x r f s).st = s.st := by unfold writeSumAndFlag; split <;> rfl
@[simp] theorem writeSumAndFlag_disp (x : RegIdx) (r : Byte) (f : Bool) (s : State) :
    (writeSumAndFlag x r f s).disp = s.disp := by unfold writeSumAndFlag; split <;> rfl
@[simp] theorem writeSumAndFlag_keys (x : RegIdx) (r : Byte) (f : Bool) (s : State) :
    (writeSumAndFlag x r f s).keys = s.keys := by unfold writeSumAndFlag; split <;> rfl
@[simp] theorem writeSumAndFlag_edge (x : RegIdx) (r : Byte) (f : Bool) (s : State) :
    (writeSumAndFlag x r f s).edge = s.edge := by unfold writeSumAndFlag; split <;> rfl
@[simp] theorem writeSumAndFlag_mode (x : RegIdx) (r : Byte) (f : Bool) (s : State) :
    (writeSumAndFlag x r f s).mode = s.mode := by unfold writeSumAndFlag; split <;> rfl
@[simp] theorem writeSumAndFlag_fault (x : RegIdx) (r : Byte) (f : Bool) (s : State) :
    (writeSumAndFlag x r f s).fault = s.fault := by unfold writeSumAndFlag; split <;> rfl
@[simp] theorem writeSumAndFlag_draws (x : RegIdx) (r : Byte) (f : Bool) (s : State) :
    (writeSumAndFlag x r f s).draws = s.draws := by unfold writeSumAndFlag; split <;> rfl
@[simp] theorem writeSumAndFlag_byteAt (x : RegIdx) (r : Byte) (f : Bool) (s : State) (a : Nat) :
    (writeSumAndFlag x r f s).byteAt a = s.byteAt a := by unfold writeSumAndFlag; split <;> rfl
@[simp] theorem writeSumAndFlag_sp (x : RegIdx) (r : Byte) (f : Bool) (s : State) :
    (writeSumAndFlag x r f s).sp = s.sp := by unfold writeSumAndFlag; split <;> rfl

@[simp] theorem writeResultAndFlag_params (x : RegIdx) (r : Byte) (f : Bool) (s : State) :
    (writeResultAndFlag x r f s).params = s.params := by unfold writeResultAndFlag; split <;> rfl
@[simp] theorem writeResultAndFlag_mem (x : RegIdx) (r : Byte) (f : Bool) (s : State) :
    (writeResultAndFlag x r f s).mem = s.mem := by unfold writeResultAndFlag; split <;> rfl
@[simp] theorem writeResultAndFlag_idx (x : RegIdx) (r : Byte) (f : Bool) (s : State) :
    (writeResultAndFlag x r f s).idx = s.idx := by unfold writeResultAndFlag; split <;> rfl
@[simp] theorem writeResultAndFlag_pc (x : RegIdx) (r : Byte) (f : Bool) (s : State) :
    (writeResultAndFlag x r f s).pc = s.pc := by unfold writeResultAndFlag; split <;> rfl
@[simp] theorem writeResultAndFlag_stack (x : RegIdx) (r : Byte) (f : Bool) (s : State) :
    (writeResultAndFlag x r f s).stack = s.stack := by unfold writeResultAndFlag; split <;> rfl
@[simp] theorem writeResultAndFlag_dt (x : RegIdx) (r : Byte) (f : Bool) (s : State) :
    (writeResultAndFlag x r f s).dt = s.dt := by unfold writeResultAndFlag; split <;> rfl
@[simp] theorem writeResultAndFlag_st (x : RegIdx) (r : Byte) (f : Bool) (s : State) :
    (writeResultAndFlag x r f s).st = s.st := by unfold writeResultAndFlag; split <;> rfl
@[simp] theorem writeResultAndFlag_disp (x : RegIdx) (r : Byte) (f : Bool) (s : State) :
    (writeResultAndFlag x r f s).disp = s.disp := by unfold writeResultAndFlag; split <;> rfl
@[simp] theorem writeResultAndFlag_keys (x : RegIdx) (r : Byte) (f : Bool) (s : State) :
    (writeResultAndFlag x r f s).keys = s.keys := by unfold writeResultAndFlag; split <;> rfl
@[simp] theorem writeResultAndFlag_edge (x : RegIdx) (r : Byte) (f : Bool) (s : State) :
    (writeResultAndFlag x r f s).edge = s.edge := by unfold writeResultAndFlag; split <;> rfl
@[simp] theorem writeResultAndFlag_mode (x : RegIdx) (r : Byte) (f : Bool) (s : State) :
    (writeResultAndFlag x r f s).mode = s.mode := by unfold writeResultAndFlag; split <;> rfl
@[simp] theorem writeResultAndFlag_fault (x : RegIdx) (r : Byte) (f : Bool) (s : State) :
    (writeResultAndFlag x r f s).fault = s.fault := by unfold writeResultAndFlag; split <;> rfl
@[simp] theorem writeResultAndFlag_draws (x : RegIdx) (r : Byte) (f : Bool) (s : State) :
    (writeResultAndFlag x r f s).draws = s.draws := by unfold writeResultAndFlag; split <;> rfl
@[simp] theorem writeResultAndFlag_byteAt (x : RegIdx) (r : Byte) (f : Bool) (s : State) (a : Nat) :
    (writeResultAndFlag x r f s).byteAt a = s.byteAt a := by unfold writeResultAndFlag; split <;> rfl
@[simp] theorem writeResultAndFlag_sp (x : RegIdx) (r : Byte) (f : Bool) (s : State) :
    (writeResultAndFlag x r f s).sp = s.sp := by unfold writeResultAndFlag; split <;> rfl

/-! ### Keys -/

/-- The probe of a key code (R200). -/
theorem isPressed_key (b : Byte) (s : State) (h : b.toNat < 16) :
    isPressed b s = (s.keys.get ⟨b.toNat, h⟩, s) := by
  simp [isPressed, h]

/-- The probe of a value that names no key (R200): a free value. -/
theorem isPressed_draw (b : Byte) (s : State) (h : ¬ b.toNat < 16) :
    isPressed b s = (Config.keyProbe s.draws, s.countDraw) := by
  simp [isPressed, h]

/-- The probe changes nothing but, for a value above 15, the count of draws. -/
theorem isPressed_state (b : Byte) (s : State) :
    (isPressed b s).2 = s ∨ (isPressed b s).2 = s.countDraw := by
  by_cases h : b.toNat < 16
  · exact .inl (by rw [isPressed_key b s h])
  · exact .inr (by rw [isPressed_draw b s h])

theorem mem_latchedKeys (s : State) (k : KeyCode) : k ∈ latchedKeys s ↔ s.edge.get k = true := by
  simp [latchedKeys]

/-- The key that completes a wait is a latched one (R206). -/
theorem pickedKey_mem (s : State) (k : KeyCode) (ks : List KeyCode) : pickedKey s k ks ∈ k :: ks := by
  have h : Config.keyPick s.draws % (ks.length + 1) < (k :: ks).length := by
    simpa using Nat.mod_lt _ (Nat.succ_pos _)
  unfold pickedKey
  rw [List.getD_eq_getElem _ _ h]
  exact List.getElem_mem h

/-- All that a waiting step can do (R206): nothing while no edge is latched, else it completes with a
latched key. -/
theorem waitStep_cases (t : RegIdx) (s : State) :
    ((∀ k, s.edge.get k = false) ∧ waitStep t s = .next s) ∨
      ∃ k, s.edge.get k = true ∧ waitStep t s =
        .next (((s.setReg t (BitVec.ofNat 8 k.val)).advance.setMode .running).clearEdges.countDraw) := by
  unfold waitStep
  cases h : latchedKeys s with
  | nil =>
    refine .inl ⟨fun k => ?_, rfl⟩
    have := (mem_latchedKeys s k).not.mp (by simp [h])
    simpa using this
  | cons k ks =>
    refine .inr ⟨pickedKey s k ks, ?_, rfl⟩
    exact (mem_latchedKeys s _).mp (h ▸ pickedKey_mem s k ks)

/-! ### Completing an instruction -/

/-- All that completing an instruction can do: its new state, or the entry of its fault (R302). It
never ends in a fault or a refusal of the model. -/
theorem complete_cases (instr : Instr) (s : State) (r : Except FaultKind State) :
    (∃ t, r = .ok t ∧ complete instr s r = .next t) ∨
      ∃ k, r = .error k ∧ complete instr s r = .next (s.enterFault k (some (encode instr))) := by
  cases r with
  | ok t => exact .inl ⟨t, rfl, rfl⟩
  | error k => exact .inr ⟨k, rfl, rfl⟩

@[simp] theorem complete_ok (instr : Instr) (s t : State) : complete instr s (.ok t) = .next t := rfl

@[simp] theorem complete_error (instr : Instr) (s : State) (k : FaultKind) :
    complete instr s (.error k) = .next (s.enterFault k (some (encode instr))) := rfl

end Sys2Proof.Machine
end

