-- ==== Sys2Proof/Laws/Draw.lean ====
section
/-! SUPPORT. What drawing does to each pixel and to the sticky collision (R180). -/

namespace Sys2Proof.Machine

theorem Display.pixel_clear (x y : Nat) : Display.clear.pixel x y = false := by
  unfold Display.pixel Display.clear
  split <;> simp

theorem Display.pixel_toggle (d : Display) (x y px py : Nat) :
    (d.toggle x y).pixel px py =
      if px = x ∧ py = y ∧ x < 64 ∧ y < 32 then !d.pixel x y else d.pixel px py := by
  unfold Display.toggle
  by_cases h : x < 64 ∧ y < 32
  · simp only [h, and_self, dite_true, and_true]
    by_cases hp : px < 64 ∧ py < 32
    · unfold Display.pixel
      simp only [h, hp, and_self, dite_true]
      by_cases hx : px = x
      · subst hx
        by_cases hy : py = y
        · subst hy; simp
        · simp [hy, Vector.getElem_set_ne, Ne.symm hy]
      · simp [hx, Vector.getElem_set_ne, Ne.symm hx]
    · have : ¬(px = x ∧ py = y) := by omega
      rw [if_neg this]
      simp only [Display.pixel, hp, dite_false]
  · rw [dif_neg h, if_neg (by omega)]

theorem Display.pixel_off (d : Display) {x y : Nat} (h : ¬(x < 64 ∧ y < 32)) : d.pixel x y = false := by
  simp only [Display.pixel, h, dite_false]

/-- Does a sprite row drawn from column `x0` set a bit at column `px`, clipped at the right edge? -/
def rowBit (x0 : Nat) (row : Byte) (px : Nat) : Bool :=
  decide (x0 ≤ px ∧ px < x0 + 8 ∧ px < DISP_W) && row.getMsbD (px - x0)

theorem drawBit_disp (x0 y : Nat) (row : Byte) (c : Canvas) (b px py : Nat) :
    (drawBit x0 y row c b).disp.pixel px py =
      if px = x0 + b ∧ py = y ∧ px < 64 ∧ y < 32 ∧ row.getMsbD b then !c.disp.pixel px py
      else c.disp.pixel px py := by
  unfold drawBit
  by_cases h : DISP_W ≤ x0 + b
  · rw [if_pos h, if_neg (by simp only [DISP_W] at h; omega)]
  · rw [if_neg h]
    by_cases hb : row.getMsbD b = true
    · simp only [hb, if_true, Canvas.strike, Display.pixel_toggle, and_true]
      by_cases hp : px = x0 + b ∧ py = y
      · obtain ⟨rfl, rfl⟩ := hp
        simp
      · rw [if_neg (by tauto), if_neg (by tauto)]
    · simp [hb]

theorem drawBit_hit (x0 y : Nat) (row : Byte) (c : Canvas) (b : Nat) :
    (drawBit x0 y row c b).hit = (c.hit || (row.getMsbD b && c.disp.pixel (x0 + b) y)) := by
  unfold drawBit
  by_cases h : DISP_W ≤ x0 + b
  · rw [if_pos h, Display.pixel_off _ (by simp only [DISP_W] at h; omega)]
    simp
  · rw [if_neg h]
    by_cases hb : row.getMsbD b = true <;> simp [hb, Canvas.strike]

theorem drawBits_spec (x0 y : Nat) (row : Byte) (c : Canvas) (n : Nat) :
    (∀ px py, ((List.range n).foldl (drawBit x0 y row) c).disp.pixel px py =
      if py = y ∧ y < 32 ∧ x0 ≤ px ∧ px < x0 + n ∧ px < 64 ∧ row.getMsbD (px - x0) then
        !c.disp.pixel px py else c.disp.pixel px py) ∧
    (((List.range n).foldl (drawBit x0 y row) c).hit = true ↔
      c.hit = true ∨ ∃ b < n, row.getMsbD b = true ∧ c.disp.pixel (x0 + b) y = true) := by
  induction n with
  | zero => simp; omega
  | succ n ih =>
    obtain ⟨ihd, ihh⟩ := ih
    simp only [List.range_succ, List.foldl_append, List.foldl_cons, List.foldl_nil]
    refine ⟨fun px py => ?_, ?_⟩
    · rw [drawBit_disp, ihd]
      by_cases hp : px = x0 + n
      · subst hp
        rw [if_neg (show ¬(py = y ∧ y < 32 ∧ x0 ≤ x0 + n ∧ x0 + n < x0 + n ∧ _) by omega)]
        simp only [Nat.add_sub_cancel_left]
        by_cases hb : row.getMsbD n = true
        · refine if_congr ⟨fun h => ?_, fun h => ?_⟩ rfl rfl
          · exact ⟨h.2.1, h.2.2.2.1, by omega, by omega, h.2.2.1, hb⟩
          · exact ⟨trivial, h.1, h.2.2.2.2.1, h.2.1, hb⟩
        · simp [hb]
      · rw [if_neg (fun h => hp h.1)]
        have : (px < x0 + (n + 1)) ↔ (px < x0 + n) := by omega
        simp only [this]
    · rw [drawBit_hit, Bool.or_eq_true, ihh, ihd, if_neg (fun h => by omega), Bool.and_eq_true, or_assoc]
      refine or_congr_right ⟨?_, ?_⟩
      · rintro (⟨b, hb, h⟩ | h)
        · exact ⟨b, by omega, h⟩
        · exact ⟨n, by omega, h⟩
      · rintro ⟨b, hb, h⟩
        by_cases hbn : b = n
        · exact .inr (hbn ▸ h)
        · exact .inl ⟨b, by omega, h⟩

/-- One row: a pixel of that row toggles where the row sets a bit. -/
theorem drawRow_pixel (x0 y : Nat) (row : Byte) (c : Canvas) (px py : Nat) (hy : y < 32) :
    (drawRow x0 y row c).disp.pixel px py =
      if py = y ∧ rowBit x0 row px = true then !c.disp.pixel px py else c.disp.pixel px py := by
  unfold drawRow
  rw [(drawBits_spec x0 y row c 8).1]
  simp only [rowBit, Bool.and_eq_true, decide_eq_true_eq, hy, true_and, DISP_W, and_assoc]

/-- One row: collision where a set bit meets a pixel that was set. -/
theorem drawRow_hit (x0 y : Nat) (row : Byte) (c : Canvas) :
    (drawRow x0 y row c).hit = true ↔
      c.hit = true ∨ ∃ px, rowBit x0 row px = true ∧ c.disp.pixel px y = true := by
  unfold drawRow
  rw [(drawBits_spec x0 y row c 8).2]
  refine or_congr_right ⟨?_, ?_⟩
  · rintro ⟨b, hb, h1, h2⟩
    refine ⟨x0 + b, ?_, h2⟩
    have : x0 + b < 64 := by
      by_contra h
      rw [Display.pixel_off _ (by omega)] at h2
      cases h2
    simpa [rowBit, DISP_W, hb, this] using h1
  · rintro ⟨px, h1, h2⟩
    simp only [rowBit, Bool.and_eq_true, decide_eq_true_eq] at h1
    refine ⟨px - x0, by omega, h1.2, ?_⟩
    rw [show x0 + (px - x0) = px by omega]
    exact h2

/-- The rows of a sprite from row `y0` down, on screen: each pixel toggles exactly where its row sets a
bit, and the collision is set exactly when such a pixel was set before. -/
theorem drawRows_spec (x0 : Nat) (rows : List Byte) (y0 : Nat) (c : Canvas) (h : y0 + rows.length ≤ 32) :
    (∀ px py, (drawRows x0 y0 rows c).disp.pixel px py =
      if ∃ r, ∃ hr : r < rows.length, py = y0 + r ∧ rowBit x0 rows[r] px = true then
        !c.disp.pixel px py else c.disp.pixel px py) ∧
    ((drawRows x0 y0 rows c).hit = true ↔
      c.hit = true ∨ ∃ px r, ∃ hr : r < rows.length,
        rowBit x0 rows[r] px = true ∧ c.disp.pixel px (y0 + r) = true) := by
  induction rows generalizing y0 c with
  | nil => simp [drawRows]
  | cons row rows ih =>
    have hl : y0 + 1 + rows.length ≤ 32 := by simp at h; omega
    obtain ⟨ihd, ihh⟩ := ih (y0 + 1) (drawRow x0 y0 row c) hl
    have hy : y0 < 32 := by omega
    refine ⟨fun px py => ?_, ?_⟩
    · show (drawRows x0 (y0 + 1) rows (drawRow x0 y0 row c)).disp.pixel px py = _
      rw [ihd, drawRow_pixel _ _ _ _ _ _ hy]
      by_cases hp : py = y0
      · subst hp
        rw [if_neg (by rintro ⟨r, -, hr, -⟩; omega)]
        have : (∃ r, ∃ hr : r < (row :: rows).length, py = py + r ∧ rowBit x0 (row :: rows)[r] px = true) ↔
            rowBit x0 row px = true := by
          constructor
          · rintro ⟨r, hr, he, hb⟩
            obtain rfl : r = 0 := by omega
            exact hb
          · intro hb; exact ⟨0, by simp, rfl, hb⟩
        simp only [this, true_and]
      · have : (∃ r, ∃ hr : r < (row :: rows).length, py = y0 + r ∧ rowBit x0 (row :: rows)[r] px = true) ↔
            ∃ r, ∃ hr : r < rows.length, py = y0 + 1 + r ∧ rowBit x0 rows[r] px = true := by
          constructor
          · rintro ⟨r, hr, he, hb⟩
            obtain ⟨q, rfl⟩ : ∃ q, r = q + 1 := ⟨r - 1, by omega⟩
            exact ⟨q, by simpa using hr, by omega, by simpa using hb⟩
          · rintro ⟨r, hr, he, hb⟩
            exact ⟨r + 1, by simpa using hr, by omega, by simpa using hb⟩
        simp only [this, hp, false_and, if_false]
    · show (drawRows x0 (y0 + 1) rows (drawRow x0 y0 row c)).hit = true ↔ _
      rw [ihh, drawRow_hit, or_assoc]
      refine or_congr_right ⟨?_, ?_⟩
      · rintro (⟨px, h1, h2⟩ | ⟨px, r, hr, h1, h2⟩)
        · exact ⟨px, 0, by simp, h1, h2⟩
        · rw [drawRow_pixel _ _ _ _ _ _ hy, if_neg (by omega)] at h2
          exact ⟨px, r + 1, by simpa using hr, by simpa using h1, by
            rwa [show y0 + (r + 1) = y0 + 1 + r by omega]⟩
      · rintro ⟨px, r, hr, h1, h2⟩
        rcases r with _ | r
        · exact .inl ⟨px, h1, h2⟩
        · refine .inr ⟨px, r, by simpa using hr, by simpa using h1, ?_⟩
          rw [drawRow_pixel _ _ _ _ _ _ hy, if_neg (by omega)]
          rwa [show y0 + 1 + r = y0 + (r + 1) by omega]

end Sys2Proof.Machine
end

