-- ==== Sys2Proof/Laws/Encoding.lean ====
section
/-! SUPPORT. The fields of an assembled word, and the word of its fields (R81), by arithmetic on values. -/

namespace Sys2Proof

theorem append_toNat {m n : Nat} (a : BitVec m) (b : BitVec n) :
    (a ++ b).toNat = a.toNat * 2 ^ n + b.toNat := by
  rw [BitVec.toNat_append, ← Nat.shiftLeft_add_eq_or_of_lt b.isLt, Nat.shiftLeft_eq]

theorem extract_toNat (w : Word) (start len : Nat) :
    (w.extractLsb' start len).toNat = w.toNat / 2 ^ start % 2 ^ len := by
  rw [BitVec.extractLsb'_toNat, Nat.shiftRight_eq_div_pow]

@[simp] theorem regNibble_toNat (r : RegIdx) : (regNibble r).toNat = r.val := rfl

theorem wordXYN_toNat (op : Nibble) (x y : RegIdx) (n : Nibble) :
    (wordXYN op x y n).toNat = op.toNat * 4096 + x.val * 256 + y.val * 16 + n.toNat := by
  show (op ++ regNibble x ++ regNibble y ++ n).toNat = _
  simp only [append_toNat, regNibble_toNat]
  omega

theorem wordXNN_toNat (op : Nibble) (x : RegIdx) (nn : Byte) :
    (wordXNN op x nn).toNat = op.toNat * 4096 + x.val * 256 + nn.toNat := by
  show (op ++ regNibble x ++ nn).toNat = _
  simp only [append_toNat, regNibble_toNat]
  omega

theorem wordNNN_toNat (op : Nibble) (nnn : Addr12) : (wordNNN op nnn).toNat = op.toNat * 4096 + nnn.toNat := by
  show (op ++ nnn).toNat = _
  simp only [append_toNat]
  omega

/-- The values of the fields of a word. -/
theorem fields_values (w : Word) :
    (fields w).opcode.toNat = w.toNat / 4096 % 16 ∧ (fields w).x.val = w.toNat / 256 % 16 ∧
    (fields w).y.val = w.toNat / 16 % 16 ∧ (fields w).n.toNat = w.toNat % 16 ∧
    (fields w).nn.toNat = w.toNat % 256 ∧ (fields w).nnn.toNat = w.toNat % 4096 := by
  refine ⟨extract_toNat w 12 4, extract_toNat w 8 4, extract_toNat w 4 4, ?_, ?_, ?_⟩
  · exact (extract_toNat w 0 4).trans (by simp)
  · exact (extract_toNat w 0 8).trans (by simp)
  · exact (extract_toNat w 0 12).trans (by simp)

/-- The fields of `opcode : X : Y : N`; the two longer ones overlap them. -/
theorem fields_wordXYN (op : Nibble) (x y : RegIdx) (n : Nibble) :
    ∃ nn nnn, fields (wordXYN op x y n) = ⟨op, x, y, n, nn, nnn⟩ := by
  obtain ⟨h1, h2, h3, h4, -, -⟩ := fields_values (wordXYN op x y n)
  rw [wordXYN_toNat] at h1 h2 h3 h4
  have := op.isLt; have := n.isLt; have := x.isLt; have := y.isLt
  generalize fields (wordXYN op x y n) = d at *
  obtain ⟨o, x', y', n', nn, nnn⟩ := d
  obtain rfl : o = op := BitVec.eq_of_toNat_eq (by simp only at h1; omega)
  obtain rfl : x' = x := Fin.ext (by simp only at h2; omega)
  obtain rfl : y' = y := Fin.ext (by simp only at h3; omega)
  obtain rfl : n' = n := BitVec.eq_of_toNat_eq (by simp only at h4; omega)
  exact ⟨nn, nnn, rfl⟩

/-- The fields of `opcode : X : NN`. -/
theorem fields_wordXNN (op : Nibble) (x : RegIdx) (nn : Byte) :
    ∃ y n nnn, fields (wordXNN op x nn) = ⟨op, x, y, n, nn, nnn⟩ := by
  obtain ⟨h1, h2, -, -, h5, -⟩ := fields_values (wordXNN op x nn)
  rw [wordXNN_toNat] at h1 h2 h5
  have := op.isLt; have := nn.isLt; have := x.isLt
  generalize fields (wordXNN op x nn) = d at *
  obtain ⟨o, x', y, n, nn', nnn⟩ := d
  obtain rfl : o = op := BitVec.eq_of_toNat_eq (by simp only at h1; omega)
  obtain rfl : x' = x := Fin.ext (by simp only at h2; omega)
  obtain rfl : nn' = nn := BitVec.eq_of_toNat_eq (by simp only at h5; omega)
  exact ⟨y, n, nnn, rfl⟩

/-- The fields of `opcode : NNN`. -/
theorem fields_wordNNN (op : Nibble) (nnn : Addr12) :
    ∃ x y n nn, fields (wordNNN op nnn) = ⟨op, x, y, n, nn, nnn⟩ := by
  obtain ⟨h1, -, -, -, -, h6⟩ := fields_values (wordNNN op nnn)
  rw [wordNNN_toNat] at h1 h6
  have := op.isLt; have := nnn.isLt
  generalize fields (wordNNN op nnn) = d at *
  obtain ⟨o, x, y, n, nn, nnn'⟩ := d
  obtain rfl : o = op := BitVec.eq_of_toNat_eq (by simp only at h1; omega)
  obtain rfl : nnn' = nnn := BitVec.eq_of_toNat_eq (by simp only at h6; omega)
  exact ⟨x, y, n, nn, rfl⟩

/-- A word is put together from its fields. -/
theorem word_of_fields (w : Word) :
    wordXYN (fields w).opcode (fields w).x (fields w).y (fields w).n = w ∧
    wordXNN (fields w).opcode (fields w).x (fields w).nn = w ∧
    wordNNN (fields w).opcode (fields w).nnn = w := by
  obtain ⟨h1, h2, h3, h4, h5, h6⟩ := fields_values w
  have := w.isLt
  refine ⟨BitVec.eq_of_toNat_eq ?_, BitVec.eq_of_toNat_eq ?_, BitVec.eq_of_toNat_eq ?_⟩
  · rw [wordXYN_toNat]; omega
  · rw [wordXNN_toNat]; omega
  · rw [wordNNN_toNat]; omega

/-- A word's bytes, put together again high byte first, are the word (R64, R66). -/
theorem hiLo_wordBytes (w : Word) : hiLo (w.extractLsb' 8 8) (w.extractLsb' 0 8) = w := by
  apply BitVec.eq_of_toNat_eq
  show (w.extractLsb' 8 8 ++ w.extractLsb' 0 8).toNat = _
  have := w.isLt
  simp only [append_toNat, extract_toNat]
  omega

/-- The decoder on a word's bytes is dispatch of the word. -/
theorem decode_wordBytes (w : Word) (rest : List Byte) :
    decode (wordBytes w ++ rest) =
      match dispatch w with
      | .ok i => .ok (i, rest)
      | .error e => .error e := by
  cases h : dispatch w <;>
    simp only [wordBytes, List.cons_append, List.nil_append, decode, hiLo_wordBytes, h]

end Sys2Proof
end

