-- ==== Sys2Proof/Laws/Exec.lean ====
section
/-! SUPPORT. All that each meaning that can fault does, as one equation, over the closed forms of the shared
operations. -/

namespace Sys2Proof.Machine

theorem execRet_empty (s : State) (h : s.stack = []) :
    execRet s = .next (s.enterFault (.stackFault .underflow) (some (encode .ret))) := by
  simp [execRet, pop_empty s h]

theorem execRet_top (s : State) (below : List Word) (w : Word) (h : s.stack = below ++ [w]) :
    execRet s = .next { s with stack := below, pc := w } := by
  simp [execRet, pop_top s below w h, State.setPc]

theorem execCall_eq (nnn : Addr12) (s : State) :
    execCall nnn s =
      if s.sp < STACK_DEPTH then .next { s with stack := s.stack ++ [s.pc + 2], pc := zext16 nnn }
      else .next (s.enterFault (.stackFault .overflow) (some (encode (.call nnn)))) := by
  unfold execCall
  rw [push_eq]
  by_cases h : s.sp < STACK_DEPTH <;> simp only [h, if_true, if_false] <;> rfl

theorem execDrw_eq (x y : RegIdx) (n : Nibble) (s : State) :
    execDrw x y n s =
      if drawRowCount y n s = 0 ∨ memOperand s + drawRowCount y n s ≤ MEM_SIZE then
        .next (((s.setDisp (drawRows (drawOrigin x y s).1 (drawOrigin x y s).2
            (s.bytesAt (memOperand s) (drawRowCount y n s)) ⟨s.disp, false⟩).disp).setReg regF
          (flagByte (drawRows (drawOrigin x y s).1 (drawOrigin x y s).2
            (s.bytesAt (memOperand s) (drawRowCount y n s)) ⟨s.disp, false⟩).hit)).advance)
      else .next (s.enterFault (.memoryFault (max (memOperand s) MEM_SIZE)) (some (encode (.drw x y n)))) := by
  unfold execDrw
  rw [loadBytes_eq]
  by_cases h : drawRowCount y n s = 0 ∨ memOperand s + drawRowCount y n s ≤ MEM_SIZE <;>
    simp only [h, if_true, if_false] <;> rfl

theorem execLdBVx_eq (x : RegIdx) (s : State) :
    execLdBVx x s =
      if memOperand s + 3 ≤ MEM_SIZE then
        .next (s.pokeAll (memOperand s) (bcdDigits (s.reg x))).advance
      else .next (s.enterFault (.memoryFault (max (memOperand s) MEM_SIZE)) (some (encode (.ldBVx x)))) := by
  unfold execLdBVx
  rw [storeBytes_eq, bcdDigits_length]
  by_cases h : memOperand s + 3 ≤ MEM_SIZE
  · rw [if_pos (Or.inr h), if_pos h]; rfl
  · rw [if_neg (by simp [h, bcdDigits]), if_neg h]; rfl

theorem execStoreRegs_eq (x : RegIdx) (s : State) :
    execStoreRegs x s =
      if memOperand s + (x.val + 1) ≤ MEM_SIZE then
        .next ((s.pokeAll (memOperand s) (regRange x s)).setIdx (idxAfterRange x s)).advance
      else .next (s.enterFault (.memoryFault (max (memOperand s) MEM_SIZE)) (some (encode (.storeRegs x)))) := by
  have hne : regRange x s ≠ [] := fun h => by simpa [h] using regRange_length x s
  unfold execStoreRegs
  rw [storeBytes_eq, regRange_length]
  by_cases h : memOperand s + (x.val + 1) ≤ MEM_SIZE
  · rw [if_pos (Or.inr h), if_pos h]; rfl
  · rw [if_neg (not_or.mpr ⟨hne, h⟩), if_neg h]; rfl

theorem execLoadRegs_eq (x : RegIdx) (s : State) :
    execLoadRegs x s =
      if memOperand s + (x.val + 1) ≤ MEM_SIZE then
        .next ((s.setRegs (s.bytesAt (memOperand s) (x.val + 1))).setIdx (idxAfterRange x s)).advance
      else .next (s.enterFault (.memoryFault (max (memOperand s) MEM_SIZE)) (some (encode (.loadRegs x)))) := by
  unfold execLoadRegs
  rw [loadBytes_eq]
  by_cases h : memOperand s + (x.val + 1) ≤ MEM_SIZE
  · rw [if_pos (Or.inr h), if_pos h]; rfl
  · rw [if_neg (by simp [h]), if_neg h]; rfl

end Sys2Proof.Machine
end

