-- ==== Sys2Proof/Laws/PerInstr.lean ====
section
/-! SUPPORT. Per instruction: its word lies in its row of the opcode map (R87). -/

namespace Sys2Proof.Laws.InRow

/-- The bits of the instruction's word under its row's mask are the row's value. -/
def Statement (i : Instr) : Prop := (opcodeRow i).covers (encode i) = true

theorem append_and {m n : Nat} (a c : BitVec m) (b d : BitVec n) :
    (a ++ b) &&& (c ++ d) = (a &&& c) ++ (b &&& d) := by
  ext i hi
  by_cases h : i < n <;> simp [BitVec.getElem_append, h]

theorem nibble_and (n : Nibble) : n &&& 15#4 = n := BitVec.and_allOnes (x := n)

theorem byte_and (b : Byte) : b &&& 255#8 = b := BitVec.and_allOnes (x := b)

/-- The group mask keeps the opcode of `opcode : NNN`. -/
theorem group_NNN (op : Nibble) (nnn : Addr12) :
    wordNNN op nnn &&& 0xF000#16 = wordNNN op 0 := by
  have h : (op ++ nnn) &&& (0xF#4 ++ 0x000#12) = op ++ 0x000#12 := by
    rw [append_and]; simp [nibble_and]
  exact h

/-- The group mask keeps the opcode of `opcode : X : NN`. -/
theorem group_XNN (op : Nibble) (x : RegIdx) (nn : Byte) :
    wordXNN op x nn &&& 0xF000#16 = wordXNN op 0 0 := by
  have h : (op ++ regNibble x ++ nn) &&& (0xF#4 ++ 0x0#4 ++ 0x00#8) = op ++ 0x0#4 ++ 0x00#8 := by
    rw [append_and, append_and]; simp [nibble_and]
  exact h

/-- The group mask keeps the opcode of `opcode : X : Y : N`. -/
theorem group_XYN (op : Nibble) (x y : RegIdx) (n : Nibble) :
    wordXYN op x y n &&& 0xF000#16 = wordXYN op 0 0 0 := by
  have h : (op ++ regNibble x ++ regNibble y ++ n) &&& (0xF#4 ++ 0x0#4 ++ 0x0#4 ++ 0x0#4) =
      op ++ 0x0#4 ++ 0x0#4 ++ 0x0#4 := by
    rw [append_and, append_and, append_and]; simp [nibble_and]
  exact h

/-- The mask of group 8 keeps the opcode and N. -/
theorem group8_XYN (op : Nibble) (x y : RegIdx) (n : Nibble) :
    wordXYN op x y n &&& 0xF00F#16 = wordXYN op 0 0 n := by
  have h : (op ++ regNibble x ++ regNibble y ++ n) &&& (0xF#4 ++ 0x0#4 ++ 0x0#4 ++ 0xF#4) =
      op ++ 0x0#4 ++ 0x0#4 ++ n := by
    rw [append_and, append_and, append_and]; simp [nibble_and]
  exact h

/-- The mask of groups E and F keeps the opcode and NN. -/
theorem groupEF_XNN (op : Nibble) (x : RegIdx) (nn : Byte) :
    wordXNN op x nn &&& 0xF0FF#16 = wordXNN op 0 nn := by
  have h : (op ++ regNibble x ++ nn) &&& (0xF#4 ++ 0x0#4 ++ 0xFF#8) = op ++ 0x0#4 ++ nn := by
    rw [append_and, append_and]; simp [nibble_and, byte_and]
  exact h

theorem covers_of {r : OpcodeRow} {w : Word} (h : w &&& r.mask = r.value) : r.covers w = true := by
  simp [OpcodeRow.covers, h]

theorem cls : Statement .cls := rfl
theorem ret : Statement .ret := rfl
theorem sys (nnn : Addr12) : Statement (.sys nnn) := covers_of (group_NNN _ _)
theorem jp (nnn : Addr12) : Statement (.jp nnn) := covers_of (group_NNN _ _)
theorem call (nnn : Addr12) : Statement (.call nnn) := covers_of (group_NNN _ _)
theorem seImm (x : RegIdx) (nn : Byte) : Statement (.seImm x nn) := covers_of (group_XNN _ _ _)
theorem sneImm (x : RegIdx) (nn : Byte) : Statement (.sneImm x nn) := covers_of (group_XNN _ _ _)
theorem seReg (x y : RegIdx) (n : Nibble) : Statement (.seReg x y n) := covers_of (group_XYN _ _ _ _)
theorem ldImm (x : RegIdx) (nn : Byte) : Statement (.ldImm x nn) := covers_of (group_XNN _ _ _)
theorem addImm (x : RegIdx) (nn : Byte) : Statement (.addImm x nn) := covers_of (group_XNN _ _ _)
theorem ldReg (x y : RegIdx) : Statement (.ldReg x y) := covers_of (group8_XYN _ _ _ _)
theorem orReg (x y : RegIdx) : Statement (.orReg x y) := covers_of (group8_XYN _ _ _ _)
theorem andReg (x y : RegIdx) : Statement (.andReg x y) := covers_of (group8_XYN _ _ _ _)
theorem xorReg (x y : RegIdx) : Statement (.xorReg x y) := covers_of (group8_XYN _ _ _ _)
theorem addReg (x y : RegIdx) : Statement (.addReg x y) := covers_of (group8_XYN _ _ _ _)
theorem subReg (x y : RegIdx) : Statement (.subReg x y) := covers_of (group8_XYN _ _ _ _)
theorem shr (x y : RegIdx) : Statement (.shr x y) := covers_of (group8_XYN _ _ _ _)
theorem subnReg (x y : RegIdx) : Statement (.subnReg x y) := covers_of (group8_XYN _ _ _ _)
theorem shl (x y : RegIdx) : Statement (.shl x y) := covers_of (group8_XYN _ _ _ _)
theorem sneReg (x y : RegIdx) (n : Nibble) : Statement (.sneReg x y n) := covers_of (group_XYN _ _ _ _)
theorem ldI (nnn : Addr12) : Statement (.ldI nnn) := covers_of (group_NNN _ _)
theorem jpV0 (nnn : Addr12) : Statement (.jpV0 nnn) := covers_of (group_NNN _ _)
theorem rnd (x : RegIdx) (nn : Byte) : Statement (.rnd x nn) := covers_of (group_XNN _ _ _)
theorem drw (x y : RegIdx) (n : Nibble) : Statement (.drw x y n) := covers_of (group_XYN _ _ _ _)
theorem skp (x : RegIdx) : Statement (.skp x) := covers_of (groupEF_XNN _ _ _)
theorem sknp (x : RegIdx) : Statement (.sknp x) := covers_of (groupEF_XNN _ _ _)
theorem ldVxDt (x : RegIdx) : Statement (.ldVxDt x) := covers_of (groupEF_XNN _ _ _)
theorem ldVxK (x : RegIdx) : Statement (.ldVxK x) := covers_of (groupEF_XNN _ _ _)
theorem ldDtVx (x : RegIdx) : Statement (.ldDtVx x) := covers_of (groupEF_XNN _ _ _)
theorem ldStVx (x : RegIdx) : Statement (.ldStVx x) := covers_of (groupEF_XNN _ _ _)
theorem addIVx (x : RegIdx) : Statement (.addIVx x) := covers_of (groupEF_XNN _ _ _)
theorem ldFVx (x : RegIdx) : Statement (.ldFVx x) := covers_of (groupEF_XNN _ _ _)
theorem ldBVx (x : RegIdx) : Statement (.ldBVx x) := covers_of (groupEF_XNN _ _ _)
theorem storeRegs (x : RegIdx) : Statement (.storeRegs x) := covers_of (groupEF_XNN _ _ _)
theorem loadRegs (x : RegIdx) : Statement (.loadRegs x) := covers_of (groupEF_XNN _ _ _)

end Sys2Proof.Laws.InRow
end

