-- ==== Sys2Proof/Laws/Sprite.lean ====
section
/-! SUPPORT. The sprite bits of the claims (`SpriteBit`) are the bits that the draw's rows set (R180). -/

namespace Sys2Proof.Machine

theorem drawRowCount_fits (s : State) (x y : RegIdx) (n : Nibble) :
    (drawOrigin x y s).2 + (s.bytesAt (memOperand s) (drawRowCount y n s)).length ≤ 32 := by
  simp only [State.bytesAt_length, drawOrigin, drawRowCount, DISP_H]
  omega

/-- The rows that a draw reads are in memory exactly when its check passes. -/
theorem spriteInMemory_reads (s : State) (y : RegIdx) (n : Nibble) (h : SpriteInMemory s y n) :
    drawRowCount y n s = 0 ∨ memOperand s + drawRowCount y n s ≤ MEM_SIZE := by
  by_cases h0 : drawRowCount y n s = 0
  · exact .inl h0
  · have := h (drawRowCount y n s - 1) (by simp only [drawRowCount, DISP_H] at *; omega)
      (by simp only [drawRowCount, DISP_H] at *; omega)
    exact .inr (by simp only [memOperand, MEM_SIZE]; omega)

theorem spriteBit_iff (s : State) (x y : RegIdx) (n : Nibble) (px py : Nat) :
    SpriteBit s x y n px py ↔
      ∃ r, ∃ hr : r < (s.bytesAt (memOperand s) (drawRowCount y n s)).length,
        py = (drawOrigin x y s).2 + r ∧
        rowBit (drawOrigin x y s).1 (s.bytesAt (memOperand s) (drawRowCount y n s))[r] px = true := by
  have hrow : ∀ r (hr : r < (s.bytesAt (memOperand s) (drawRowCount y n s)).length),
      (s.bytesAt (memOperand s) (drawRowCount y n s))[r] = s.byteAt (s.idx.toNat + r) := fun r hr => by
    simp [State.bytesAt, memOperand]
  have hl : (s.bytesAt (memOperand s) (drawRowCount y n s)).length =
      min n.toNat (32 - (s.reg y).toNat % 32) := by rw [State.bytesAt_length]; rfl
  have h1 : (drawOrigin x y s).1 = (s.reg x).toNat % 64 := rfl
  have h2 : (drawOrigin x y s).2 = (s.reg y).toNat % 32 := rfl
  constructor
  · rintro ⟨r, hr, b, hb, e1, e2, e3, e4, e5⟩
    refine ⟨r, by rw [hl]; omega, by rw [h2]; exact e2, ?_⟩
    rw [hrow, h1]
    simp only [rowBit, Bool.and_eq_true, decide_eq_true_eq, DISP_W]
    refine ⟨by omega, ?_⟩
    rw [show px - (s.reg x).toNat % 64 = b by omega]
    exact e5
  · rintro ⟨r, hr, e1, e2⟩
    rw [hrow r hr, h1] at e2
    simp only [rowBit, Bool.and_eq_true, decide_eq_true_eq, DISP_W] at e2
    rw [hl] at hr
    rw [h2] at e1
    exact ⟨r, by omega, px - (s.reg x).toNat % 64, by omega, by omega, e1, by omega, by omega, e2.2⟩

end Sys2Proof.Machine
end

