-- ==== Sys2Proof/Laws/Step.lean ====
section
/-! SUPPORT. All that one step can do, the placed instruction that the next step runs, and the values of the
operand forms and of the host's key and timer calls. -/

namespace Sys2Proof.Machine

/-! ### Operand forms -/

@[simp] theorem zext16_toNat (nnn : Addr12) : (zext16 nnn).toNat = nnn.toNat := by
  have := nnn.isLt
  simp [zext16]
  omega

theorem flagByte_toNat (f : Bool) : (flagByte f).toNat = if f then 1 else 0 := by cases f <;> rfl

theorem shiftOperand_toNat (s : State) (x y : RegIdx) :
    (shiftOperand x y s).toNat = shiftSourceValue s x y := by
  unfold shiftOperand shiftSourceValue
  cases s.params.shiftSource <;> rfl

theorem idxAfterRange_toNat (s : State) (x : RegIdx) :
    (idxAfterRange x s).toNat = idxAfterTransfer s x := by
  unfold idxAfterRange idxAfterTransfer
  cases s.params.loadStoreI <;> simp

theorem tickDown_toNat (b : Byte) : (tickDown b).toNat = b.toNat - 1 := by
  have := b.isLt
  unfold tickDown
  split
  · rw [BitVec.toNat_sub]; simp; omega
  · omega

theorem KeyVector.get_set (v : KeyVector) (k j : KeyCode) (b : Bool) :
    (v.set k.val b k.isLt).get j = if j = k then b else v.get j := by
  simp only [Vector.get_eq_getElem, Vector.getElem_set, Fin.ext_iff, eq_comm]

/-! ### One step -/

/-- All that a step can do (R85): nothing in Faulted; the waiting step; a fetch that faults; an illegal
word; the execution of an instruction. -/
theorem step_cases (s : State) :
    (s.mode = .faulted ∧ step s = .next s) ∨
    (∃ t, s.mode = .waitingForKey t ∧ step s = waitStep t s) ∨
    (s.mode = .running ∧ 4094 < s.pc.toNat ∧
      step s = .next (s.enterFault (.memoryFault (max s.pc.toNat MEM_SIZE)) none)) ∨
    (s.mode = .running ∧ s.pc.toNat ≤ 4094 ∧
      ∃ w, step s = .next (s.enterFault (.unimplementedInstruction w) (some w))) ∨
    (s.mode = .running ∧ s.pc.toNat ≤ 4094 ∧ ∃ i, step s = exec i s) := by
  unfold step
  cases hm : s.mode with
  | faulted => simp [stepFaulted]
  | waitingForKey t => simp
  | running =>
    simp only [fetch_eq]
    by_cases hp : s.pc.toNat ≤ 4094
    · simp only [hp, if_true]
      cases hd : dispatch (hiLo (s.byteAt s.pc.toNat) (s.byteAt (s.pc.toNat + 1))) with
      | ok i => exact .inr (.inr (.inr (.inr ⟨trivial, trivial, i, rfl⟩)))
      | error e => exact .inr (.inr (.inr (.inl ⟨trivial, trivial, _, rfl⟩)))
    · exact .inr (.inr (.inl ⟨trivial, by omega, by simp [hp, fetchFault]⟩))

/-- A waiting step (R85). -/
theorem step_waiting {s : State} {t : RegIdx} (h : s.mode = .waitingForKey t) : step s = waitStep t s := by
  unfold step; simp only [h]

/-! ### A placed instruction -/

/-- The state that `withFetchWord` answers is Running at an address that a fetch accepts. -/
theorem withFetchWord_running (s : State) (nbits w : Nat) :
    (s.withFetchWord nbits w).mode = .running ∧ (s.withFetchWord nbits w).pc.toNat ≤ 4094 := by
  refine ⟨by simp [State.withFetchWord], ?_⟩
  simp only [State.withFetchWord, State.pokeAll_pc]
  split <;> simp_all

/-- What the next step fetches from it is the placed word. -/
theorem fetch_withFetchWord (s : State) (nbits w : Nat) :
    fetch (s.withFetchWord nbits w) = .ok (tableWord nbits w) := by
  rw [fetch_eq, if_pos (withFetchWord_running s nbits w).2]
  have hpc : (s.withFetchWord nbits w).pc = if s.pc.toNat ≤ 4094 then s.pc else 0x200#16 := by
    simp [State.withFetchWord]
  rw [hpc]
  simp only [State.withFetchWord, State.byteAt_pokeAll]
  simp [wordBytes]

/-- The very next step runs exactly the placed instruction. -/
theorem step_withFetchWord (s : State) (nbits w : Nat) (i : Instr) (h : dispatch (tableWord nbits w) = .ok i) :
    step (s.withFetchWord nbits w) = exec i (s.withFetchWord nbits w) := by
  unfold step
  simp only [(withFetchWord_running s nbits w).1, fetch_withFetchWord, h]

end Sys2Proof.Machine
end

