-- ==== Sys2Proof/Tests/Slice0.lean ====
section
/-! SUPPORT. Tests. Expected values come from the spec's own vectors (spec/95_test_vectors.md, ids in the
comments) or are worked out by hand from the cited rules; the words are written out from the patterns of R87.
The last part has a witness for the hypotheses of each statement of Certificates/Slice0/Obligations.lean. -/

open Sys2Proof Sys2Proof.Machine Host

namespace Sys2Proof.Tests

/-! ### Helpers -/

/-- Right after reset with VF = 0x55 (the vectors' start) and the listed registers. -/
def start (rs : List (RegIdx × Byte)) : State :=
  rs.foldl (fun s r => s.setReg r.1 r.2) (State.reset.setReg regF 0x55)

/-- Does the step that runs the word `w` in place of the next instruction answer a state with `p`? -/
def after (w : Nat) (s : State) (p : State → Bool) : Bool :=
  match step (s.withFetchWord 16 w) with
  | .next t => p t
  | .fault _ => false
  | .refused _ => false

/-- A state with other parameters. -/
def withParams (s : State) (f : Params → Params) : State := { s with params := f s.params }

/-- The vectors' sprite rows at 0x300: FF, 81, FF, with I there. -/
def sprite (s : State) : State := (s.pokeAll 0x300 [0xFF, 0x81, 0xFF]).setIdx 0x300

/-- A full stack. -/
def full (s : State) : State := { s with stack := List.replicate 16 0x202#16 }

/-- The lit columns of a display row. -/
def lit (s : State) (y : Nat) : List Nat := (List.range 64).filter fun x => s.disp.pixel x y

/-- Is the state in mode Faulted with this record? -/
def faultIs (s : State) (k : FaultKind) (pc : Word) (word : Option Word) : Bool :=
  decide (s.mode = .faulted ∧ s.fault = some ⟨k, pc, word⟩)

/-! ### Well-formedness refuses the two words that are not `0NNN` (R87) -/

theorem test_wellFormed_refuses_sys_0E0 : (Instr.sys 0x0E0).wellFormed = false := by decide
theorem test_wellFormed_refuses_sys_0EE : (Instr.sys 0x0EE).wellFormed = false := by decide
theorem test_wellFormed_accepts_sys_000 : (Instr.sys 0x000).wellFormed = true := by decide

/-! ### Decoding: every constructor from a word written out from its pattern -/

theorem test_decode_flow :
    decodeTableWord 16 0x00E0 = some .cls ∧ decodeTableWord 16 0x00EE = some .ret ∧
    decodeTableWord 16 0x0ABC = some (.sys 0xABC) ∧ decodeTableWord 16 0x1FFF = some (.jp 0xFFF) ∧
    decodeTableWord 16 0x2ABC = some (.call 0xABC) ∧ decodeTableWord 16 0xB305 = some (.jpV0 0x305) := by
  decide

theorem test_decode_skips :
    decodeTableWord 16 0x332A = some (.seImm 3 0x2A) ∧ decodeTableWord 16 0x4C01 = some (.sneImm 0xC 0x01) ∧
    decodeTableWord 16 0x5120 = some (.seReg 1 2 0) ∧ decodeTableWord 16 0x5121 = some (.seReg 1 2 1) ∧
    decodeTableWord 16 0x9AB7 = some (.sneReg 0xA 0xB 7) := by
  decide

theorem test_decode_alu :
    decodeTableWord 16 0x6A42 = some (.ldImm 0xA 0x42) ∧ decodeTableWord 16 0x7180 = some (.addImm 1 0x80) ∧
    decodeTableWord 16 0x8120 = some (.ldReg 1 2) ∧ decodeTableWord 16 0x8121 = some (.orReg 1 2) ∧
    decodeTableWord 16 0x8122 = some (.andReg 1 2) ∧ decodeTableWord 16 0x8123 = some (.xorReg 1 2) ∧
    decodeTableWord 16 0x8124 = some (.addReg 1 2) ∧ decodeTableWord 16 0x8125 = some (.subReg 1 2) ∧
    decodeTableWord 16 0x8126 = some (.shr 1 2) ∧ decodeTableWord 16 0x8127 = some (.subnReg 1 2) ∧
    decodeTableWord 16 0x812E = some (.shl 1 2) := by
  decide

theorem test_decode_index_random_draw :
    decodeTableWord 16 0xA2F0 = some (.ldI 0x2F0) ∧ decodeTableWord 16 0xC30F = some (.rnd 3 0x0F) ∧
    decodeTableWord 16 0xD125 = some (.drw 1 2 5) := by
  decide

theorem test_decode_keys_timers :
    decodeTableWord 16 0xE19E = some (.skp 1) ∧ decodeTableWord 16 0xE2A1 = some (.sknp 2) ∧
    decodeTableWord 16 0xF30A = some (.ldVxK 3) ∧ decodeTableWord 16 0xF407 = some (.ldVxDt 4) ∧
    decodeTableWord 16 0xF515 = some (.ldDtVx 5) ∧ decodeTableWord 16 0xF618 = some (.ldStVx 6) := by
  decide

theorem test_decode_memory :
    decodeTableWord 16 0xF71E = some (.addIVx 7) ∧ decodeTableWord 16 0xF829 = some (.ldFVx 8) ∧
    decodeTableWord 16 0xF933 = some (.ldBVx 9) ∧ decodeTableWord 16 0xFE55 = some (.storeRegs 0xE) ∧
    decodeTableWord 16 0xFF65 = some (.loadRegs 0xF) := by
  decide

/-- F6 to F9 (R90). -/
theorem test_decode_illegal :
    ([0x8008, 0x800D, 0x800F, 0xE000, 0xE19F, 0xF000, 0xF0FF, 0xFFFF].all fun w =>
      decodeTableWord 16 w == none) = true := by
  decide

/-- The encoder against words written out from the patterns. -/
theorem test_encode_words :
    encode (.call 0xABC) = 0x2ABC#16 ∧ encode (.shl 1 2) = 0x812E#16 ∧ encode (.drw 1 2 5) = 0xD125#16 ∧
    encode (.sknp 0xA) = 0xEAA1#16 ∧ encode (.loadRegs 0xF) = 0xFF65#16 ∧ encode (.sneReg 0xA 0xB 7) = 0x9AB7#16 := by
  decide

/-! ### Fetch and faults at fetch -/

/-- F1. -/
theorem test_fetch_big_endian :
    (match fetch (State.reset.pokeAll 0x200 [0x12, 0x34]) with
      | .ok w => w == 0x1234#16
      | .error _ => false) = true := by decide

/-- F4: pc = 0xFFF. -/
theorem test_fetch_fault_at_4095 :
    (match step (State.reset.setPc 0xFFF) with
      | .next t => faultIs t (.memoryFault 0x1000) 0xFFF none && t.pc == 0xFFF#16
      | .fault _ => false
      | .refused _ => false) = true := by decide

/-- F5: an odd pc. -/
theorem test_odd_pc : after 0x6007 ((start []).setPc 0x201) (fun t => t.reg 0 == 7 && t.pc == 0x203#16) = true := by
  decide

/-- F6. -/
theorem test_illegal_word :
    after 0x8008 (start []) (fun t =>
      faultIs t (.unimplementedInstruction 0x8008) 0x200 (some 0x8008) && t.pc == 0x200#16) = true := by
  decide

/-! ### Group 0, jumps, calls -/

/-- J1. -/
theorem test_cls :
    after 0x00E0 ((start []).setDisp (Display.clear.toggle 63 31)) (fun t =>
      lit t 31 == [] && t.reg 0xF == 0x55 && t.pc == 0x202#16) = true := by decide

/-- J3. -/
theorem test_ret :
    after 0x00EE { start [] with stack := [0x202#16, 0x40A#16] } (fun t =>
      t.stack == [0x202#16] && t.pc == 0x40A#16) = true := by decide

/-- J2. -/
theorem test_ret_underflow :
    after 0x00EE (start []) (fun t =>
      faultIs t (.stackFault .underflow) 0x200 (some 0x00EE) && t.pc == 0x200#16) = true := by decide

/-- J4. -/
theorem test_sys : after 0x0ABC (start []) (fun t => t.pc == 0x202#16) = true := by decide

/-- J5. -/
theorem test_jp : after 0x1FFF (start []) (fun t => t.pc == 0xFFF#16) = true := by decide

/-- J9: a call at the top of memory. -/
theorem test_call :
    after 0x2300 ((start []).setPc 0xFFE) (fun t => t.stack == [0x1000#16] && t.pc == 0x300#16) = true := by
  decide

/-- J8. -/
theorem test_call_overflow :
    after 0x2ABC (full (start [])) (fun t =>
      faultIs t (.stackFault .overflow) 0x200 (some 0x2ABC) && t.sp == 16 && t.pc == 0x200#16) = true := by
  decide

/-- B5. -/
theorem test_jpV0 : after 0xBFFF (start [(0, 0xFF)]) (fun t => t.pc == 0x10FE#16) = true := by decide

/-! ### Skips -/

/-- K1, K2. -/
theorem test_seImm :
    (after 0x332A (start [(3, 0x2A)]) (fun t => t.pc == 0x204#16) &&
      after 0x332A (start [(3, 0x2B)]) (fun t => t.pc == 0x202#16)) = true := by decide

/-- K3, K4. -/
theorem test_sneImm :
    (after 0x432A (start [(3, 0x2B)]) (fun t => t.pc == 0x204#16) &&
      after 0x432A (start [(3, 0x2A)]) (fun t => t.pc == 0x202#16)) = true := by decide

/-- F10 (N = 1), K6. -/
theorem test_seReg :
    (after 0x5121 (start [(1, 3), (2, 3)]) (fun t => t.pc == 0x204#16) &&
      after 0x5120 (start [(1, 7), (2, 8)]) (fun t => t.pc == 0x202#16)) = true := by decide

/-- F11 (N = 7), K9. -/
theorem test_sneReg :
    (after 0x9AB7 (start [(0xA, 1), (0xB, 2)]) (fun t => t.pc == 0x204#16) &&
      after 0x9110 (start [(1, 7)]) (fun t => t.pc == 0x202#16)) = true := by decide

/-! ### Register loads, arithmetic, logic, shifts -/

/-- A1, A2. -/
theorem test_ldImm :
    (after 0x6A42 (start []) (fun t => t.reg 0xA == 0x42 && t.reg 0xF == 0x55) &&
      after 0x6F00 (start []) (fun t => t.reg 0xF == 0)) = true := by decide

/-- A3. -/
theorem test_addImm_wraps :
    after 0x7101 (start [(1, 0xFF)]) (fun t => t.reg 1 == 0 && t.reg 0xF == 0x55 && t.pc == 0x202#16) = true := by
  decide

/-- A5. -/
theorem test_ldReg : after 0x8120 (start [(2, 0x11)]) (fun t => t.reg 1 == 0x11 && t.reg 2 == 0x11) = true := by
  decide

/-- A6. -/
theorem test_orReg :
    after 0x8121 (start [(1, 0x0F), (2, 0xF0)]) (fun t => t.reg 1 == 0xFF && t.reg 0xF == 0x55) = true := by decide

/-- A7. -/
theorem test_andReg :
    after 0x8122 (start [(1, 0x3C), (2, 0x0F)]) (fun t => t.reg 1 == 0x0C && t.reg 0xF == 0x55) = true := by decide

/-- A8. -/
theorem test_xorReg :
    after 0x8123 (start [(1, 0x3C), (2, 0x0F)]) (fun t => t.reg 1 == 0x33 && t.reg 0xF == 0x55) = true := by decide

/-- A10, A12. -/
theorem test_addReg_carry :
    (after 0x8124 (start [(1, 0xFF), (2, 0x01)]) (fun t => t.reg 1 == 0 && t.reg 0xF == 1) &&
      after 0x8124 (start [(1, 0xFE), (2, 0x01)]) (fun t => t.reg 1 == 0xFF && t.reg 0xF == 0)) = true := by decide

/-- A29, under both settings of `VF_ORDER`. -/
theorem test_addReg_into_vf :
    (after 0x8F14 (start [(0xF, 3), (1, 5)]) (fun t => t.reg 0xF == 0) &&
      after 0x8F14 (withParams (start [(0xF, 3), (1, 5)]) fun p => { p with vfOrder := .flagLast })
        (fun t => t.reg 0xF == 0)) = true := by decide

/-- A15 (equal: strict), A28 (Y = F). -/
theorem test_subReg :
    (after 0x8125 (start [(1, 7), (2, 7)]) (fun t => t.reg 1 == 0 && t.reg 0xF == 0) &&
      after 0x81F5 (start [(1, 0x10), (0xF, 3)]) (fun t => t.reg 1 == 0x0D && t.reg 0xF == 1)) = true := by decide

/-- A30, under both settings. -/
theorem test_subReg_into_vf :
    (after 0x8F15 (start [(0xF, 3), (1, 5)]) (fun t => t.reg 0xF == 0xFE) &&
      after 0x8F15 (withParams (start [(0xF, 3), (1, 5)]) fun p => { p with vfOrder := .flagLast })
        (fun t => t.reg 0xF == 0)) = true := by decide

/-- A18, A19. -/
theorem test_subnReg :
    (after 0x8127 (start [(1, 2), (2, 5)]) (fun t => t.reg 1 == 3 && t.reg 0xF == 1) &&
      after 0x8127 (start [(1, 5), (2, 2)]) (fun t => t.reg 1 == 0xFD && t.reg 0xF == 0)) = true := by decide

/-- A31, under both settings. -/
theorem test_subnReg_into_vf :
    (after 0x8F17 (start [(0xF, 3), (1, 5)]) (fun t => t.reg 0xF == 0x02) &&
      after 0x8F17 (withParams (start [(0xF, 3), (1, 5)]) fun p => { p with vfOrder := .flagLast })
        (fun t => t.reg 0xF == 1)) = true := by decide

/-- A21, A32. -/
theorem test_shr :
    (after 0x8126 (start [(2, 0x05)]) (fun t => t.reg 1 == 2 && t.reg 0xF == 1 && t.reg 2 == 5) &&
      after 0x8F16 (start [(0xF, 3), (1, 5)]) (fun t => t.reg 0xF == 2)) = true := by decide

/-- A26. -/
theorem test_shr_vx_source :
    after 0x8126 (withParams (start [(1, 0x05), (2, 0xF0)]) fun p => { p with shiftSource := .vx })
      (fun t => t.reg 1 == 2 && t.reg 0xF == 1 && t.reg 2 == 0xF0) = true := by decide

/-- A24, A25, A33. -/
theorem test_shl :
    (after 0x812E (start [(2, 0x81)]) (fun t => t.reg 1 == 2 && t.reg 0xF == 1) &&
      after 0x812E (start [(2, 0x7F)]) (fun t => t.reg 1 == 0xFE && t.reg 0xF == 0) &&
      after 0x8F1E (start [(0xF, 3), (1, 5)]) (fun t => t.reg 0xF == 0x0A)) = true := by decide

/-- A27. -/
theorem test_shl_vx_source :
    after 0x812E (withParams (start [(1, 0x81)]) fun p => { p with shiftSource := .vx })
      (fun t => t.reg 1 == 2 && t.reg 0xF == 1) = true := by decide

/-! ### Index, random -/

/-- B1. -/
theorem test_ldI : after 0xA2F0 (start []) (fun t => t.idx == 0x2F0#16) = true := by decide

/-- M1, M2. -/
theorem test_addIVx :
    (after 0xF11E ((start [(1, 3)]).setIdx 0x0FFE) (fun t => t.idx == 0x1001#16 && t.reg 0xF == 0x55) &&
      after 0xF11E ((start [(1, 1)]).setIdx 0xFFFF) (fun t => t.idx == 0#16)) = true := by decide

/-- M3, M6 (no mask). -/
theorem test_ldFVx :
    (after 0xF429 (start [(4, 0x0A)]) (fun t => t.idx == 0x082#16) &&
      after 0xF429 (start [(4, 0xFF)]) (fun t => t.idx == 0x54B#16)) = true := by decide

/-- B9, for whatever byte is drawn: the mask 0xFF keeps it, one draw is counted. -/
theorem test_rnd (s : State) :
    ∃ t, exec (.rnd 3 0xFF) s = .next t ∧ t.reg 3 = Config.randomByte s.draws ∧ t.draws = s.draws + 1 := by
  refine ⟨_, rfl, ?_, rfl⟩
  show (s.v.set 3 _).get 3 = _
  simp only [Vector.get_eq_getElem]
  exact (Vector.getElem_set_self _).trans (BitVec.and_allOnes (w := 8))

/-! ### Draw -/

/-- D3 and D4 (clipped, not wrapped), D5 (the origin wraps), D10 (the origin reads the old VF). -/
theorem test_drw_pixels :
    (after 0xD011 (sprite (start [(0, 62)])) (fun t => lit t 0 == [62, 63] && t.reg 0xF == 0) &&
      after 0xD013 (sprite (start [(1, 30)])) (fun t =>
        lit t 30 == [0, 1, 2, 3, 4, 5, 6, 7] && lit t 31 == [0, 7] && lit t 0 == []) &&
      after 0xD011 (sprite (start [(0, 67), (1, 33)])) (fun t => lit t 1 == [3, 4, 5, 6, 7, 8, 9, 10]) &&
      after 0xDF11 (sprite (start [(0xF, 8)])) (fun t =>
        lit t 0 == [8, 9, 10, 11, 12, 13, 14, 15] && t.reg 0xF == 0)) = true := by decide

/-- D6 (a collision), D7 (N = 0), D8 (a row above memory), D9 (rows that are never read). -/
theorem test_drw_flag_and_fault :
    (after 0xD011 ((sprite (start [])).setDisp (Display.clear.toggle 7 0)) (fun t =>
        lit t 0 == [0, 1, 2, 3, 4, 5, 6] && t.reg 0xF == 1) &&
      after 0xD010 (sprite (start [])) (fun t => lit t 0 == [] && t.reg 0xF == 0 && t.pc == 0x202#16) &&
      after 0xD013 ((start []).setIdx 0x0FFE) (fun t =>
        faultIs t (.memoryFault 0x1000) 0x200 (some 0xD013) && t.reg 0xF == 0x55) &&
      after 0xD013 ((start [(1, 30)]).setIdx 0x0FFE) (fun t => t.reg 0xF == 0 && t.pc == 0x202#16)) = true := by
  decide

/-! ### Keypad -/

/-- E1, E2. -/
theorem test_skp :
    (after 0xE19E (setKeyState 5 true (start [(1, 5)])) (fun t => t.pc == 0x204#16) &&
      after 0xE19E (start [(1, 5)]) (fun t => t.pc == 0x202#16)) = true := by decide

/-- E3, E4. -/
theorem test_sknp :
    (after 0xE1A1 (start [(1, 5)]) (fun t => t.pc == 0x204#16) &&
      after 0xE1A1 (setKeyState 5 true (start [(1, 5)])) (fun t => t.pc == 0x202#16)) = true := by decide

/-- E9, first step: the edge of a key already held is cleared. -/
theorem test_ldVxK :
    after 0xF20A (setKeyState 3 true (start [])) (fun t =>
      decide (t.mode = .waitingForKey 2) && t.pc == 0x200#16 && t.keys.get 3 && !t.edge.get 3) = true := by decide

/-- E6, E7, E8. -/
theorem test_setKeyState :
    ((setKeyState 3 true (start [])).edge.get 3 = true ∧ (setKeyState 3 true (start [])).keys.get 3 = true) ∧
    setKeyState 3 true (setKeyState 3 true (start [])) = setKeyState 3 true (start []) ∧
    ((setKeyState 3 false (setKeyState 3 true (start []))).keys.get 3 = false ∧
      (setKeyState 3 false (setKeyState 3 true (start []))).edge.get 3 = true) := by decide

/-! ### Timers -/

/-- T1. -/
theorem test_ldVxDt :
    after 0xF207 ((start []).setDt 0x3C) (fun t => t.reg 2 == 0x3C && t.dt == 0x3C) = true := by decide

/-- T2. -/
theorem test_ldDtVx : after 0xF215 (start [(2, 0x3C)]) (fun t => t.dt == 0x3C && t.st == 0) = true := by decide

/-- T3. -/
theorem test_ldStVx :
    after 0xF218 (start [(2, 2)]) (fun t => t.st == 2 && t.dt == 0 && soundTimerActive t) = true := by decide

/-- T4, T6. -/
theorem test_tickTimers :
    ((tickTimers ((start []).setSt 1)).st = 0 ∧ (tickTimers ((start []).setSt 1)).dt = 0) ∧
    (tickTimers (((start []).setDt 5).setMode .faulted)).dt = 4 := by decide

/-! ### Memory transfers -/

/-- M8 (255), M10. -/
theorem test_ldBVx :
    (after 0xF733 ((start [(7, 255)]).setIdx 0x300) (fun t =>
      t.byteAt 0x300 == 2 && t.byteAt 0x301 == 5 && t.byteAt 0x302 == 5 && t.idx == 0x300#16) &&
      after 0xF733 ((start [(7, 156)]).setIdx 0xFFD) (fun t =>
        t.byteAt 0xFFD == 1 && t.byteAt 0xFFE == 5 && t.byteAt 0xFFF == 6)) = true := by decide

/-- M9. -/
theorem test_ldBVx_fault :
    after 0xF733 ((start [(7, 123)]).setIdx 0xFFE) (fun t =>
      faultIs t (.memoryFault 0x1000) 0x200 (some 0xF733) && t.byteAt 0xFFE == 0) = true := by decide

/-- M11, M14. -/
theorem test_storeRegs :
    (after 0xF255 ((start [(0, 1), (1, 2), (2, 3), (3, 4)]).setIdx 0x400) (fun t =>
      t.byteAt 0x400 == 1 && t.byteAt 0x401 == 2 && t.byteAt 0x402 == 3 && t.byteAt 0x403 == 0 &&
        t.idx == 0x400#16) &&
      after 0xF055 ((start [(0, 9)]).setIdx 0xFFF) (fun t => t.byteAt 0xFFF == 9)) = true := by decide

/-- M12, M13. -/
theorem test_storeRegs_increment_and_fault :
    (after 0xF255 ((withParams (start [(0, 1)]) fun p => { p with loadStoreI := .increment }).setIdx 0x400)
      (fun t => t.byteAt 0x400 == 1 && t.idx == 0x403#16) &&
      after 0xF255 ((start [(0, 1)]).setIdx 0xFFE) (fun t =>
        faultIs t (.memoryFault 0x1000) 0x200 (some 0xF255) && t.byteAt 0xFFE == 0)) = true := by decide

/-- M15, M16 (VF too). -/
theorem test_loadRegs :
    (after 0xF265 (((start []).pokeAll 0x400 [1, 2, 3, 4]).setIdx 0x400) (fun t =>
      t.reg 0 == 1 && t.reg 2 == 3 && t.reg 3 == 0 && t.idx == 0x400#16) &&
      after 0xFF65 (((start []).pokeAll 0x400 [1, 2, 3, 4]).setIdx 0x3F4) (fun t => t.reg 0xF == 4)) = true := by
  decide

/-- M17. -/
theorem test_loadRegs_fault :
    after 0xF065 ((start [(0, 7)]).setIdx 0x1000) (fun t =>
      faultIs t (.memoryFault 0x1000) 0x200 (some 0xF065) && t.reg 0 == 7) = true := by decide

/-! ### Witnesses: for each statement with hypotheses, a state and operands that meet them, for each clause
and at the boundary values of its ranges -/

/-- Running, with the word placed at pc. -/
def placed (w : Nat) : State := (start []).withFetchWord 16 w

/-- In mode Faulted, with a record. -/
def faulted : State := (start []).enterFault (.stackFault .underflow) (some 0x00EE)

/-- Waiting for a key for V2, none latched. -/
def waiting : State := (start []).setMode (.waitingForKey 2)

/-- A sprite at the top of memory: two rows. -/
def topSprite : State := ((start []).pokeAll 0xFFE [0x80, 0x01]).setIdx 0xFFE

theorem witness_ConstructedStateValues :
    (0 < 80 ∧ 79 < 80) ∧ 0x04F < defaultParams.fontBase.val ∧ defaultParams.fontBase.val + 80 ≤ 0x0A0 := by
  decide

theorem witness_LoadCopiesProgram :
    ([] : List Byte).length ≤ 3584 ∧ (List.replicate 3584 (1 : Byte)).length ≤ 3584 ∧
    (List.replicate 3585 (1 : Byte)).length > 3584 ∧
    3583 < (List.replicate 3584 (1 : Byte)).length ∧
    0x1FF < 0x200 ∧ 0x200 + (List.replicate 3584 (1 : Byte)).length ≤ 0x1000 := by
  simp only [List.length_replicate, List.length_nil]
  decide

theorem witness_DecodeOfEncode :
    (Instr.sys 0x0DF).wellFormed = true ∧ (Instr.sys 0xFFF).wellFormed = true ∧ (Instr.drw 15 0 15).wellFormed = true := by
  decide

theorem witness_EncodeOfDispatch :
    (match dispatch 0xD125 with | .ok i => decide (i = .drw 1 2 5) | .error _ => false) = true := by decide

theorem witness_DispatchFollowsOpcodeMap :
    ((Instr.sys 0x456).wellFormed = true ∧ 0x00E1#16 &&& (opcodeRow (.sys 0x456)).mask = (opcodeRow (.sys 0x456)).value ∧
      (0x00E1#16 ≠ 0x00E0#16 ∧ 0x00E1#16 ≠ 0x00EE#16)) ∧
    (Instr.cls.wellFormed = true ∧ 0x00E0#16 &&& (opcodeRow .cls).mask = (opcodeRow .cls).value ∧
      opcodeRow .cls ≠ ⟨0xF000#16, 0x0000#16⟩) ∧
    (0xFF65#16 &&& (opcodeRow (.loadRegs 3)).mask = (opcodeRow (.loadRegs 3)).value) := by
  decide

theorem witness_IllegalWordsExactly :
    (placed 0x8008).mode = .running ∧ (placed 0x8008).pc.toNat ≤ 4094 ∧
    hiLo ((placed 0x8008).byteAt (placed 0x8008).pc.toNat) ((placed 0x8008).byteAt ((placed 0x8008).pc.toNat + 1)) = 0x8008 ∧
    (match dispatch 0x8008 with | .ok _ => false | .error e => decide (e = .unimplemented 0x8008)) = true := by
  decide

/-- At pc = 4094, the last address that a fetch accepts. -/
theorem witness_StepRunsDecodedInstruction :
    (((start []).setPc 0xFFE).withFetchWord 16 0x7101).mode = .running ∧
    (((start []).setPc 0xFFE).withFetchWord 16 0x7101).pc.toNat = 4094 ∧
    (match decode [(((start []).setPc 0xFFE).withFetchWord 16 0x7101).byteAt 4094,
        (((start []).setPc 0xFFE).withFetchWord 16 0x7101).byteAt 4095] with
      | .ok r => decide (r = (.addImm 1 1, []))
      | .error _ => false) = true := by decide

theorem witness_FetchFaultsAboveMemory :
    ((start []).setPc 0xFFF).mode = .running ∧ 4095 ≤ ((start []).setPc 0xFFF).pc.toNat ∧
    4095 ≤ ((start []).setPc 0x1000).pc.toNat ∧ 4095 ≤ ((start []).setPc 0xFFFF).pc.toNat ∧
    ((start []).setPc 0xFFE).pc.toNat = 4094 := by decide

theorem witness_FaultingStepChangesNothingElse :
    (placed 0x00EE).mode ≠ .faulted ∧ ∃ t, step (placed 0x00EE) = .next t ∧ t.mode = .faulted :=
  ⟨by decide, _, rfl, rfl⟩

theorem witness_FaultedModeIsFinal : faulted.mode = .faulted := by decide

theorem witness_FaultTableExactly :
    faultOf (.call 0) (full (start [])) = some (.stackFault .overflow) ∧
    faultOf .ret (start []) = some (.stackFault .underflow) ∧
    faultOf (.drw 0 1 3) ((start []).setIdx 0xFFE) = some (.memoryFault 4096) ∧
    faultOf (.drw 0 1 2) ((start []).setIdx 0xFFE) = none ∧
    faultOf (.ldBVx 0) ((start []).setIdx 0xFFE) = some (.memoryFault 4096) ∧
    faultOf (.ldBVx 0) ((start []).setIdx 0xFFD) = none ∧
    faultOf (.storeRegs 0) ((start []).setIdx 0x1234) = some (.memoryFault 0x1234) ∧
    faultOf (.loadRegs 1) ((start []).setIdx 0xFFF) = some (.memoryFault 4096) ∧
    faultOf (.loadRegs 0) ((start []).setIdx 0xFFF) = none ∧ faultOf .cls (start []) = none := by decide

theorem witness_SysIsNoOp :
    (0x0FFF#16).toNat < 4096 ∧ 0x0FFF#16 ≠ 0x00E0#16 ∧ 0x0FFF#16 ≠ 0x00EE#16 := by decide

theorem witness_ClsClearsDisplay : (0 < 64 ∧ 63 < 64) ∧ (0 < 32 ∧ 31 < 32) := by decide

theorem witness_CallPushesReturnAddress :
    (start []).sp < 16 ∧ ({ start [] with stack := List.replicate 15 0x202#16 } : State).sp < 16 ∧
    (full (start [])).sp = 16 := by decide

theorem witness_RetPopsIntoPc :
    (full (start [])).stack = List.replicate 15 0x202#16 ++ [0x202#16] ∧
    ({ start [] with stack := [0x202#16] } : State).stack = [] ++ [0x202#16] ∧ (start []).sp = 0 := by decide

theorem witness_CallReturnRoundTrip :
    ({ start [] with stack := List.replicate 15 0x202#16 } : State).sp < 16 ∧
    ∃ t, exec (.call 0x300) (start []) = .next t ∧ ({ start [] with stack := t.stack } : State).stack = t.stack :=
  ⟨by decide, _, rfl, rfl⟩

theorem witness_AddSetsCarry : (0 : RegIdx) ≠ regF ∧ (14 : RegIdx) ≠ regF := by decide

/-- Also for ShiftsSetBitOut. -/
theorem witness_SubtractionsSetStrictFlag :
    (14 : RegIdx) ≠ regF ∧ (start []).params.vfOrder = .docOrder ∧
    (withParams (start []) fun p => { p with vfOrder := .flagLast }).params.vfOrder = .flagLast := by decide

theorem topSprite_inMemory : SpriteInMemory topSprite 1 2 := fun r hr _ => by
  have hi : topSprite.idx.toNat = 0xFFE := by decide
  have hn : r < 2 := hr
  omega

theorem witness_DrawTogglesSprite :
    SpriteInMemory topSprite 1 2 ∧ SpriteInMemory ((start []).setIdx 0xFFFF) 1 0 ∧
    SpriteBit topSprite 0 1 2 7 1 ∧ ¬ SpriteBit topSprite 0 1 2 63 31 ∧
    (∃ px py, SpriteBit topSprite 0 1 2 px py ∧
      (topSprite.setDisp (Display.clear.toggle 7 1)).disp.pixel px py = true) ∧
    (¬ ∃ px py, SpriteBit topSprite 0 1 2 px py ∧ topSprite.disp.pixel px py = true) := by
  refine ⟨topSprite_inMemory, fun r hr _ => absurd hr (Nat.not_lt_zero r), ⟨1, by decide, 7, by decide, by decide⟩, ?_, ⟨7, 1, ⟨1, by decide, 7, by decide, by decide⟩, by decide⟩, ?_⟩
  · rintro ⟨r, hr, b, hb, h, -⟩
    have h0 : (topSprite.reg 0).toNat = 0 := by decide
    omega
  · rintro ⟨px, py, -, h⟩
    have h0 : topSprite.disp = Display.clear := by decide
    rw [h0] at h
    simp [Display.pixel, Display.clear] at h

theorem witness_DrawFaultsAboveMemory :
    2 < (3 : Nibble).toNat ∧ (((start []).setIdx 0xFFE).reg 1).toNat % 32 + 2 < 32 ∧
    4095 < ((start []).setIdx 0xFFE).idx.toNat + 2 ∧
    (∀ q < 2, ((start []).setIdx 0xFFE).idx.toNat + q ≤ 4095) ∧
    (0 < (1 : Nibble).toNat ∧ 4095 < ((start []).setIdx 0x1000).idx.toNat + 0) := by decide

theorem witness_DoubleDrawRestores :
    SpriteInMemory topSprite 1 2 ∧
    (∃ t, exec (.drw 0 1 2) topSprite = .next t ∧ t.reg 0 = topSprite.reg 0 ∧ t.reg 1 = topSprite.reg 1) ∧
    (∃ px py, SpriteBit topSprite 0 1 2 px py ∧ topSprite.disp.pixel px py = false) ∧
    (¬ ∃ px py, SpriteBit topSprite 0 1 0 px py ∧ topSprite.disp.pixel px py = false) := by
  refine ⟨topSprite_inMemory, ⟨_, rfl, by decide, by decide⟩, ⟨7, 1, ⟨1, by decide, 7, by decide, by decide⟩, by decide⟩, ?_⟩
  rintro ⟨px, py, ⟨r, hr, -⟩, -⟩
  exact absurd hr (by simp)

theorem witness_SetKeyStateLatchesEdge : (15 : KeyCode) ≠ 0 := by decide

theorem witness_KeySkips :
    ((start [(1, 15)]).reg 1).toNat < 16 ∧ 15 < ((start [(1, 16)]).reg 1).toNat := by decide

theorem witness_WaitingStep :
    waiting.mode = .waitingForKey 2 ∧ (∀ k, waiting.edge.get k = false) ∧
    (setKeyState 15 true waiting).mode = .waitingForKey 2 ∧ ∃ k, (setKeyState 15 true waiting).edge.get k = true :=
  ⟨by decide, by decide, by decide, 15, by decide⟩

theorem witness_WaitEndsOnlyByKeyPress :
    waiting.mode = .waitingForKey 2 ∧ (∀ k, waiting.edge.get k = false) ∧
    ∀ k, Transaction.setKeyState k true ∉ [Transaction.step, .tickTimers, .setKeyState 3 false, .load [0x12]] :=
  ⟨by decide, by decide, by decide⟩

theorem witness_KeyPressCompletesWait :
    waiting.mode = .waitingForKey 2 ∧ (∀ j, waiting.edge.get j = false) ∧ waiting.keys.get 0xF = false := by decide

/-- For BcdStoresDigits, StoreRegistersBlock, LoadRegistersBlock and TransfersFaultAboveMemory: `FX33` at 0xFFD, `FX55` and `FX65` ending at 0xFFF, and the first addresses that do not fit. -/
theorem witness_transfers :
    ((start []).setIdx 0xFFD).idx.toNat + 2 ≤ 4095 ∧ ((start []).setIdx 0xFF0).idx.toNat + (15 : RegIdx).val ≤ 4095 ∧
    ((start []).setIdx 0xFFF).idx.toNat + (0 : RegIdx).val ≤ 4095 ∧
    4095 < ((start []).setIdx 0xFFE).idx.toNat + 2 ∧ 4095 < ((start []).setIdx 0x1000).idx.toNat + (0 : RegIdx).val ∧
    ((0 : RegIdx) ≤ 0 ∧ (15 : RegIdx) ≤ 15 ∧ (14 : RegIdx) < 15) := by decide

theorem witness_StoreThenLoadRestoresRegisters :
    ((start []).setIdx 0x400).idx.toNat + (2 : RegIdx).val ≤ 4095 ∧
    ∃ t, exec (.storeRegs 2) ((start []).setIdx 0x400) = .next t ∧
      (∀ a, (t.setReg 0 9).byteAt a = t.byteAt a) ∧ (t.setReg 0 9).idx = ((start []).setIdx 0x400).idx :=
  ⟨by decide, _, rfl, fun _ => rfl, rfl⟩

theorem witness_StoredWordIsExecuted :
    1 ≤ (1 : RegIdx).val ∧ ((start [(0, 0x6A), (1, 0x77)]).setIdx 0xFFE).idx.toNat + (1 : RegIdx).val ≤ 4095 ∧
    (match dispatch (hiLo ((start [(0, 0x6A), (1, 0x77)]).reg 0) ((start [(0, 0x6A), (1, 0x77)]).reg 1)) with
      | .ok i => decide (i = .ldImm 0xA 0x77)
      | .error _ => false) = true ∧
    ∃ t, exec (.storeRegs 1) ((start [(0, 0x6A), (1, 0x77)]).setIdx 0xFFE) = .next t ∧
      (∀ a, (t.setPc 0xFFE).byteAt a = t.byteAt a) ∧ (t.setPc 0xFFE).mode = .running ∧ (t.setPc 0xFFE).pc = 0xFFE :=
  ⟨by decide, by decide, by decide, _, rfl, fun _ => rfl, rfl, rfl⟩

/-- Also for OnlyNamedPartsWritten and OnlyStoresChangeMemory: an instruction that writes registers, one that stores, and the
parts they may not write. -/
theorem witness_OnlyNamedRegistersWritten :
    (∃ t, exec (.shl 1 2) (start []) = .next t) ∧ (3 : RegIdx) ∉ writtenRegs (.shl 1 2) ∧
    (∃ t, exec (.storeRegs 2) ((start []).setIdx 0x400) = .next t) ∧
    faultOf (.storeRegs 2) ((start []).setIdx 0x400) = none ∧
    ¬ StoresTo (.storeRegs 2) ((start []).setIdx 0x400) 0x403 ∧ ¬ StoresTo .cls (start []) 0 :=
  ⟨⟨_, rfl⟩, by decide, ⟨_, rfl⟩, by decide, by show ¬(_ ∧ _); decide, fun h => h⟩

theorem witness_SoundTimerUnobserved : ∃ t, step (placed 0xF218) = .next t := ⟨_, rfl⟩

/-- A running machine with a program stored, a call under way, and a pc inside memory. -/
def midRun : State := { (start []).pokeAll 0x200 [0x22, 0x00] with stack := [0x1000#16], pc := 0xFFE }

theorem midRun_inv : MachineInv midRun :=
  { memory := by decide, depth := by decide, returns := fun w h => by
      have hw : w = 0x1000#16 := List.mem_singleton.mp h
      subst hw
      decide
    record := by decide
    precise := fun r h => absurd (show midRun.fault = none by rfl) (by rw [h]; simp)
    pcBound := by decide, waitsAt := by decide }

theorem witness_StepKeepsInv : MachineInv midRun ∧ ∃ t, step midRun = .next t := ⟨midRun_inv, _, rfl⟩

/-- And in mode Faulted. -/
theorem witness_StepKeepsInv_faulted : MachineInv faulted :=
  { memory := by decide, depth := by decide, returns := fun w h => (nomatch h), record := by decide
    precise := fun r h => by
      have hr : r = ⟨.stackFault .underflow, 0x200, some 0x00EE⟩ := (Option.some.inj h).symm
      subst hr
      exact ⟨by decide, by simp [FaultRecord.consistent]⟩
    pcBound := by decide, waitsAt := by decide }

theorem witness_ReachableStatesMeetInv : Reachable (setKeyState 5 true (State.construct defaultParams)) :=
  ⟨defaultParams, [.setKeyState 5 true], rfl⟩

end Sys2Proof.Tests
end

section
/-! PROOFS. The statements of spec/00_scope.md: the parameters of R5 are fixed at construction (O53), and
the values that they have at reset (O2). -/

namespace Sys2Proof.Machine

/-! ### No operation changes the parameters -/

variable {i : Instr} {s t u : State}

/-- An instruction that raises no fault keeps the parameters when the state it writes has them. -/
theorem params_of_next (h : (.next u : Host.Outcome State Fault Refusal) = .next t)
    (hu : u.params = s.params) : t.params = s.params :=
  Host.Outcome.next.inj h ▸ hu

/-- An instruction with one check that guards all its writes: the entry of its fault keeps the parameters too. -/
theorem params_of_checked {c : Prop} [Decidable c] {k : FaultKind} {w : Option Word}
    (h : (if c then .next u else .next (s.enterFault k w) : Host.Outcome State Fault Refusal) = .next t)
    (hu : u.params = s.params) : t.params = s.params := by
  split at h
  · exact params_of_next h hu
  · exact params_of_next h (State.enterFault_params s k w)

theorem execRet_params (h : execRet s = .next t) : t.params = s.params := by
  rcases List.eq_nil_or_concat' s.stack with hs | ⟨below, w, hs⟩
  · exact params_of_next ((execRet_empty s hs).symm.trans h) rfl
  · exact params_of_next ((execRet_top s below w hs).symm.trans h) rfl

@[simp] theorem isPressed_params (b : Byte) (s : State) : (isPressed b s).2.params = s.params := by
  rcases isPressed_state b s with h | h
  · rw [h]
  · rw [h, State.countDraw_params]

/-- No instruction writes the parameters (R5). -/
theorem exec_params (h : exec i s = .next t) : t.params = s.params := by
  cases i with
  | ret => exact execRet_params h
  | call nnn => exact params_of_checked ((execCall_eq nnn s).symm.trans h) rfl
  | drw x y n => exact params_of_checked ((execDrw_eq x y n s).symm.trans h) (by simp)
  | ldBVx x => exact params_of_checked ((execLdBVx_eq x s).symm.trans h) (by simp)
  | storeRegs x => exact params_of_checked ((execStoreRegs_eq x s).symm.trans h) (by simp)
  | loadRegs x => exact params_of_checked ((execLoadRegs_eq x s).symm.trans h) (by simp)
  | addReg x y => exact params_of_next h (by simp)
  | subReg x y | subnReg x y | shr x y | shl x y => exact params_of_next h (by simp)
  | skp x | sknp x => exact params_of_next h (by simp)
  | _ => exact params_of_next h rfl

theorem waitStep_params {r : RegIdx} (h : waitStep r s = .next t) : t.params = s.params := by
  rcases waitStep_cases r s with ⟨-, hw⟩ | ⟨k, -, hw⟩
  · exact params_of_next (hw.symm.trans h) rfl
  · exact params_of_next (hw.symm.trans h) rfl

theorem step_params (h : step s = .next t) : t.params = s.params := by
  rcases step_cases s with
    ⟨-, hs⟩ | ⟨r, -, hs⟩ | ⟨-, -, hs⟩ | ⟨-, -, w, hs⟩ | ⟨-, -, i, hs⟩
  · exact params_of_next (hs.symm.trans h) rfl
  · exact waitStep_params (hs.symm.trans h)
  · exact params_of_next (hs.symm.trans h) rfl
  · exact params_of_next (hs.symm.trans h) rfl
  · exact exec_params (hs.symm.trans h)

theorem load_params {bytes : List Byte} (h : load bytes s = .next t) : t.params = s.params := by
  unfold load at h
  split at h
  · cases h
  · exact params_of_next h (State.pokeAll_params ..)

/-- No transaction of R7 writes the parameters; a call that fails leaves the whole state. -/
@[simp] theorem transact_params (a : Transaction) (s : State) : (transact a s).1.params = s.params := by
  cases a with
  | step =>
    simp only [transact]
    split
    next t h => exact step_params h
    next => rfl
    next => rfl
  | load bytes =>
    simp only [transact]
    split
    next t h => exact load_params h
    next => rfl
    next => rfl
  | tickTimers | setKeyState k p | displaySnapshot | soundTimerActive => rfl

theorem runHost_params (as : List Transaction) (s : State) : (runHost as s).params = s.params := by
  induction as generalizing s with
  | nil => rfl
  | cons a rest ih => exact (ih (transact a s).1).trans (transact_params a s)

/-- Settles O53, by induction on the host's transactions, none of which writes the parameters. -/
theorem parametersNeverChange : Obligations.ParametersNeverChange := runHost_params

/-! ### The reset contents of memory -/

/-- Memory after construction lists no cell, so every address reads as its reset byte (R331). -/
theorem State.construct_byteAt (p : Params) (a : Nat) : (State.construct p).byteAt a = resetByte p a := rfl

/-- The reset contents are zero outside the font table (R331). -/
theorem resetByte_outside_font (p : Params) {a : Nat}
    (h : a < p.fontBase.val ∨ p.fontBase.val + FONT_SIZE ≤ a) : resetByte p a = 0 :=
  if_neg (by omega)

/-- Settles O2: the parameters are read off `defaultParams`, the glyph rows are computed from the font
table at 0x050, and the addresses next to the table lie outside it. -/
theorem resetDefaults : Obligations.ResetDefaults := by
  unfold Obligations.ResetDefaults
  simp only [State.reset, State.construct_byteAt]
  refine ⟨rfl, rfl, rfl, rfl, ?glyph0, ?glyphF, ?below, ?above⟩
  case glyph0 => decide
  case glyphF => decide
  case below => exact resetByte_outside_font _ (.inl (by decide))
  case above => exact resetByte_outside_font _ (.inr (by decide))

end Sys2Proof.Machine
end

section
/-! PROOFS. The statements of spec/10_state.md: which registers (O50) and which other parts of the state
(O51) an instruction writes, and the invariant that every step (O56) and every transaction (O57) keeps. -/

namespace Sys2Proof.Machine

variable {i : Instr} {s t u : State} {k : FaultKind} {l : List Part} {rs : List RegIdx}

/-! ### The fault table in the terms of the model's own checks -/

theorem faultOf_call (nnn : Addr12) (s : State) :
    faultOf (.call nnn) s = if s.sp < STACK_DEPTH then none else some (.stackFault .overflow) := by
  simp only [faultOf, ge_iff_le, ← not_lt, ite_not]

theorem faultOf_drw (x y : RegIdx) (n : Nibble) (s : State) :
    faultOf (.drw x y n) s =
      if drawRowCount y n s = 0 ∨ memOperand s + drawRowCount y n s ≤ MEM_SIZE then none
      else some (.memoryFault (max (memOperand s) MEM_SIZE)) := by
  show (if drawRowCount y n s = 0 then none
    else if memOperand s + drawRowCount y n s > MEM_SIZE then some _ else none) = _
  by_cases h : drawRowCount y n s = 0
  · simp only [h, true_or, if_true]
  · simp only [h, false_or, if_false, gt_iff_lt, ← not_le, ite_not]
    rfl

theorem faultOf_ldBVx (x : RegIdx) (s : State) :
    faultOf (.ldBVx x) s =
      if memOperand s + 3 ≤ MEM_SIZE then none else some (.memoryFault (max (memOperand s) MEM_SIZE)) := by
  rw [← ite_not]
  exact if_congr (by simp only [memOperand, MEM_SIZE]; omega) rfl rfl

theorem faultOf_storeRegs (x : RegIdx) (s : State) :
    faultOf (.storeRegs x) s =
      if memOperand s + (x.val + 1) ≤ MEM_SIZE then none
      else some (.memoryFault (max (memOperand s) MEM_SIZE)) := by
  rw [← ite_not]
  exact if_congr (by simp only [memOperand, MEM_SIZE]; omega) rfl rfl

theorem faultOf_loadRegs (x : RegIdx) (s : State) :
    faultOf (.loadRegs x) s =
      if memOperand s + (x.val + 1) ≤ MEM_SIZE then none
      else some (.memoryFault (max (memOperand s) MEM_SIZE)) := faultOf_storeRegs x s

/-! ### The two ends of an instruction: its fault, or the state it writes -/

/-- What holds of the state that an instruction writes holds of the next state. -/
theorem of_next {P : State → Prop} (h : (.next u : Host.Outcome State Fault Refusal) = .next t) (hu : P u) :
    P t :=
  Host.Outcome.next.inj h ▸ hu

section
variable {c : Prop} [Decidable c] {k₀ : FaultKind}

/-- An instruction whose one check is the fault table's: without a fault the check passed. -/
theorem exec_completes (hf : faultOf i s = none) (h : exec i s = .next t)
    (he : exec i s = if c then .next u else .next (s.enterFault k₀ (some (encode i))))
    (hc : faultOf i s = if c then none else some k₀) : c ∧ u = t := by
  by_cases hp : c
  · rw [he, if_pos hp] at h
    exact ⟨hp, Host.Outcome.next.inj h⟩
  · rw [hc, if_neg hp] at hf
    cases hf

/-- An instruction whose one check is the fault table's: with a fault it enters just that. -/
theorem exec_enters (hf : faultOf i s = some k)
    (he : exec i s = if c then .next u else .next (s.enterFault k₀ (some (encode i))))
    (hc : faultOf i s = if c then none else some k₀) :
    exec i s = .next (s.enterFault k (some (encode i))) := by
  by_cases hp : c
  · rw [hc, if_pos hp] at hf
    cases hf
  · rw [hc, if_neg hp] at hf
    rw [he, if_neg hp, Option.some.inj hf]

end

/-- A return that raises no fault has a top to pop (R101). -/
theorem execRet_completes (hf : faultOf .ret s = none) (h : exec .ret s = .next t) :
    ∃ below w, s.stack = below ++ [w] ∧ { s with stack := below, pc := w } = t := by
  rcases List.eq_nil_or_concat' s.stack with hs | ⟨below, w, hs⟩
  · simp [faultOf, State.sp, hs] at hf
  · exact ⟨below, w, hs, Host.Outcome.next.inj ((execRet_top s below w hs).symm.trans h)⟩

/-- An instruction to which the fault table gives a fault enters it and writes nothing else (R301, R302). -/
theorem exec_of_faultOf (hf : faultOf i s = some k) :
    exec i s = .next (s.enterFault k (some (encode i))) := by
  cases i with
  | call nnn => exact exec_enters hf (execCall_eq nnn s) (faultOf_call nnn s)
  | drw x y n => exact exec_enters hf (execDrw_eq x y n s) (faultOf_drw x y n s)
  | ldBVx x => exact exec_enters hf (execLdBVx_eq x s) (faultOf_ldBVx x s)
  | storeRegs x => exact exec_enters hf (execStoreRegs_eq x s) (faultOf_storeRegs x s)
  | loadRegs x => exact exec_enters hf (execLoadRegs_eq x s) (faultOf_loadRegs x s)
  | ret =>
    obtain ⟨hsp, ⟨⟩⟩ := Option.ite_none_right_eq_some.mp hf
    exact execRet_empty s (List.length_eq_zero_iff.mp hsp)
  | _ => cases hf

/-- The two ends of an instruction that answers a next state. -/
theorem exec_cases (h : exec i s = .next t) :
    (∃ k, faultOf i s = some k ∧ t = s.enterFault k (some (encode i))) ∨ faultOf i s = none := by
  cases hf : faultOf i s with
  | none => exact .inr rfl
  | some k => exact .inl ⟨k, rfl, Host.Outcome.next.inj (h.symm.trans (exec_of_faultOf hf))⟩

/-! ### What each operation of the state keeps, but for the part it writes -/

theorem Part.same.trans {p : Part} (h₂ : p.same t u) (h₁ : p.same s t) : p.same s u := by
  cases p with
  | regs => exact fun r => (h₂ r).trans (h₁ r)
  | memory => exact fun a => (h₂ a).trans (h₁ a)
  | display => exact fun x y => (h₂ x y).trans (h₁ x y)
  | timers | keypad | modeAndFault => exact ⟨h₂.1.trans h₁.1, h₂.2.trans h₁.2⟩
  | idx | stack | draws => exact Eq.trans h₂ h₁

theorem KeptBut.refl (l : List Part) (s : State) : KeptBut l s s :=
  ⟨rfl, fun p _ => by cases p <;> simp [Part.same]⟩

/-- The rule that each operation's own rule instantiates: it writes the part `q` of a listed part only. -/
theorem KeptBut.write (hk : KeptBut l s t) {q : Part} (hl : q ∈ l) (hparams : u.params = t.params)
    (hu : ∀ p, p ≠ q → Part.same t u p) : KeptBut l s u :=
  ⟨hparams.trans hk.1, fun p hp => (hu p fun e => hp (e ▸ hl)).trans (hk.2 p hp)⟩

theorem KeptBut.setPc (hk : KeptBut l s t) (w : Word) : KeptBut l s (t.setPc w) :=
  ⟨hk.1, fun p hp => by cases p <;> exact hk.2 _ hp⟩

theorem KeptBut.advance (hk : KeptBut l s t) : KeptBut l s t.advance := hk.setPc _

theorem KeptBut.skipIf (hk : KeptBut l s t) (c : Bool) : KeptBut l s (t.skipIf c) := hk.setPc _

theorem KeptBut.setReg (hk : KeptBut l s t) (hl : .regs ∈ l) (r : RegIdx) (b : Byte) :
    KeptBut l s (t.setReg r b) :=
  hk.write hl rfl fun p hp => by cases p <;> simp_all [Part.same]

theorem KeptBut.setRegs (hk : KeptBut l s t) (hl : .regs ∈ l) (bs : List Byte) :
    KeptBut l s (t.setRegs bs) :=
  hk.write hl (t.setRegs_params bs) fun p hp => by cases p <;> simp_all [Part.same]

theorem KeptBut.setIdx (hk : KeptBut l s t) {w : Word} (hl : w ≠ s.idx → .idx ∈ l) :
    KeptBut l s (t.setIdx w) :=
  ⟨hk.1, fun p hp => by
    cases p with
    | idx => exact by_contra fun hw => hp (hl hw)
    | _ => exact hk.2 _ hp⟩

theorem KeptBut.pokeAll (hk : KeptBut l s t) (hl : .memory ∈ l) (a : Nat) (bs : List Byte) :
    KeptBut l s (t.pokeAll a bs) :=
  hk.write hl (t.pokeAll_params a bs) fun p hp => by cases p <;> simp_all [Part.same]

theorem KeptBut.setStack (hk : KeptBut l s t) (hl : .stack ∈ l) (ws : List Word) :
    KeptBut l s { t with stack := ws } :=
  hk.write hl rfl fun p hp => by cases p <;> simp_all [Part.same, State.reg, State.byteAt]

theorem KeptBut.setDisp (hk : KeptBut l s t) (hl : .display ∈ l) (d : Display) :
    KeptBut l s (t.setDisp d) :=
  hk.write hl rfl fun p hp => by cases p <;> simp_all [Part.same]

theorem KeptBut.setDt (hk : KeptBut l s t) (hl : .timers ∈ l) (b : Byte) : KeptBut l s (t.setDt b) :=
  hk.write hl rfl fun p hp => by cases p <;> simp_all [Part.same]

theorem KeptBut.setSt (hk : KeptBut l s t) (hl : .timers ∈ l) (b : Byte) : KeptBut l s (t.setSt b) :=
  hk.write hl rfl fun p hp => by cases p <;> simp_all [Part.same]

theorem KeptBut.clearEdges (hk : KeptBut l s t) (hl : .keypad ∈ l) : KeptBut l s t.clearEdges :=
  hk.write hl rfl fun p hp => by cases p <;> simp_all [Part.same]

theorem KeptBut.setMode (hk : KeptBut l s t) (hl : .modeAndFault ∈ l) (m : Mode) :
    KeptBut l s (t.setMode m) :=
  hk.write hl rfl fun p hp => by cases p <;> simp_all [Part.same]

theorem KeptBut.countDraw (hk : KeptBut l s t) (hl : .draws ∈ l) : KeptBut l s t.countDraw :=
  hk.write hl rfl fun p hp => by cases p <;> simp_all [Part.same]

theorem KeptBut.sumAndFlag (hk : KeptBut l s t) (hl : .regs ∈ l) (x : RegIdx) (r : Byte) (f : Bool) :
    KeptBut l s (writeSumAndFlag x r f t) := by
  unfold writeSumAndFlag
  split <;> exact (hk.setReg hl _ _).setReg hl _ _

theorem KeptBut.resultAndFlag (hk : KeptBut l s t) (hl : .regs ∈ l) (x : RegIdx) (r : Byte) (f : Bool) :
    KeptBut l s (writeResultAndFlag x r f t) := by
  unfold writeResultAndFlag
  split <;> exact (hk.setReg hl _ _).setReg hl _ _

/-- The key probe takes a draw for a value that names no key (R200). -/
theorem KeptBut.probe (hk : KeptBut l s t) {b : Byte} (hl : ¬ b.toNat < 16 → .draws ∈ l) :
    KeptBut l s (isPressed b t).2 := by
  by_cases h : b.toNat < 16
  · rw [isPressed_key b t h]; exact hk
  · rw [isPressed_draw b t h]; exact hk.countDraw (hl h)

/-- `FX55` and `FX65` change I only where `LOADSTORE_I` says so (R243, R244). -/
theorem loadStoreI_of_idxAfterRange_ne {x : RegIdx} (h : idxAfterRange x s ≠ s.idx) :
    s.params.loadStoreI = .increment := by
  unfold idxAfterRange at h
  cases hi : s.params.loadStoreI with
  | unchanged => simp [hi] at h
  | increment => rfl

/-- Settles O51: each instruction is a few operations of the state, and each writes a part that is listed. -/
theorem onlyNamedPartsWritten : Obligations.OnlyNamedPartsWritten := by
  intro i s t hf h
  have hs : KeptBut (writtenParts i s) s s := .refl _ s
  cases i with
  | call nnn =>
    obtain ⟨-, rfl⟩ := exec_completes hf h (execCall_eq nnn s) (faultOf_call nnn s)
    exact (hs.setStack List.mem_cons_self (s.stack ++ [s.pc + 2])).setPc (zext16 nnn)
  | ret =>
    obtain ⟨below, w, -, rfl⟩ := execRet_completes hf h
    exact (hs.setStack List.mem_cons_self below).setPc w
  | drw x y n =>
    obtain ⟨-, rfl⟩ := exec_completes hf h (execDrw_eq x y n s) (faultOf_drw x y n s)
    exact ((hs.setDisp (by simp [writtenParts]) _).setReg List.mem_cons_self _ _).advance
  | ldBVx x =>
    obtain ⟨-, rfl⟩ := exec_completes hf h (execLdBVx_eq x s) (faultOf_ldBVx x s)
    exact (hs.pokeAll List.mem_cons_self _ _).advance
  | storeRegs x =>
    obtain ⟨-, rfl⟩ := exec_completes hf h (execStoreRegs_eq x s) (faultOf_storeRegs x s)
    have hm : Part.memory ∈ writtenParts (.storeRegs x) s := by simp only [writtenParts]; split <;> simp
    exact ((hs.pokeAll hm _ _).setIdx fun hi => by
      simp [writtenParts, loadStoreI_of_idxAfterRange_ne hi]).advance
  | loadRegs x =>
    obtain ⟨-, rfl⟩ := exec_completes hf h (execLoadRegs_eq x s) (faultOf_loadRegs x s)
    have hr : Part.regs ∈ writtenParts (.loadRegs x) s := by simp only [writtenParts]; split <;> simp
    exact ((hs.setRegs hr _).setIdx fun hi => by
      simp [writtenParts, loadStoreI_of_idxAfterRange_ne hi]).advance
  | cls => exact of_next h <| (hs.setDisp List.mem_cons_self _).advance
  | sys nnn => exact of_next h <| hs.advance
  | jp nnn | jpV0 nnn => exact of_next h <| hs.setPc _
  | seImm x nn | sneImm x nn | seReg x y n | sneReg x y n => exact of_next h <| hs.skipIf _
  | skp x | sknp x => exact of_next h <| (hs.probe fun hx => by simp [writtenParts, hx]).skipIf _
  | ldImm x nn | addImm x nn | ldReg x y | orReg x y | andReg x y | xorReg x y | ldVxDt x =>
    exact of_next h <| (hs.setReg List.mem_cons_self _ _).advance
  | addReg x y => exact of_next h <| (hs.sumAndFlag List.mem_cons_self _ _ _).advance
  | subReg x y | subnReg x y | shr x y | shl x y =>
    exact of_next h <| (hs.resultAndFlag List.mem_cons_self _ _ _).advance
  | rnd x nn =>
    exact of_next h <| ((hs.setReg List.mem_cons_self _ _).countDraw (by simp [writtenParts])).advance
  | ldI nnn | addIVx x | ldFVx x => exact of_next h <| (hs.setIdx fun _ => List.mem_cons_self).advance
  | ldDtVx x => exact of_next h <| (hs.setDt List.mem_cons_self _).advance
  | ldStVx x => exact of_next h <| (hs.setSt List.mem_cons_self _).advance
  | ldVxK x => exact of_next h <| (hs.clearEdges List.mem_cons_self).setMode (by simp [writtenParts]) _

/-! ### The registers that an instruction writes -/

theorem KeptBut.regsKept (hk : KeptBut l s t) (hl : .regs ∉ l) : RegsKeptBut rs s t :=
  fun r _ => hk.2 .regs hl r

theorem RegsKeptBut.refl (rs : List RegIdx) (s : State) : RegsKeptBut rs s s := fun _ _ => rfl

theorem RegsKeptBut.advance (hk : RegsKeptBut rs s t) : RegsKeptBut rs s t.advance := hk

theorem RegsKeptBut.setIdx (hk : RegsKeptBut rs s t) (w : Word) : RegsKeptBut rs s (t.setIdx w) := hk

theorem RegsKeptBut.setReg (hk : RegsKeptBut rs s t) {r : RegIdx} (hr : r ∈ rs) (b : Byte) :
    RegsKeptBut rs s (t.setReg r b) := fun q hq =>
  (State.reg_setReg_ne t b fun e : q = r => hq (e ▸ hr)).trans (hk q hq)

theorem RegsKeptBut.setRegs (hk : RegsKeptBut rs s t) {bs : List Byte}
    (hl : ∀ r : RegIdx, r.val < bs.length → r ∈ rs) : RegsKeptBut rs s (t.setRegs bs) := fun q hq => by
  have hlen : bs.length ≤ q.val := not_lt.mp fun h => hq (hl q h)
  rw [State.reg_setRegs, List.getD_eq_default _ _ hlen, hk q hq]

theorem RegsKeptBut.sumAndFlag (hk : RegsKeptBut rs s t) {x : RegIdx} (hx : x ∈ rs) (hf : regF ∈ rs)
    (r : Byte) (f : Bool) : RegsKeptBut rs s (writeSumAndFlag x r f t) := by
  unfold writeSumAndFlag
  split <;> exact (hk.setReg hx _).setReg hf _

theorem RegsKeptBut.resultAndFlag (hk : RegsKeptBut rs s t) {x : RegIdx} (hx : x ∈ rs) (hf : regF ∈ rs)
    (r : Byte) (f : Bool) : RegsKeptBut rs s (writeResultAndFlag x r f t) := by
  unfold writeResultAndFlag
  split
  · exact (hk.setReg hf _).setReg hx _
  · exact (hk.setReg hx _).setReg hf _

/-- An instruction that raises no fault writes registers only where it names them (R31, R32). -/
theorem exec_regsKept (hf : faultOf i s = none) (h : exec i s = .next t) :
    RegsKeptBut (writtenRegs i) s t := by
  have hk : KeptBut (writtenParts i s) s t := onlyNamedPartsWritten i s t hf h
  have hs : RegsKeptBut (writtenRegs i) s s := .refl _ s
  cases i with
  | ldImm x nn | addImm x nn | ldReg x y | orReg x y | andReg x y | xorReg x y | rnd x nn | ldVxDt x =>
    exact of_next h <| hs.setReg List.mem_cons_self _
  | addReg x y => exact of_next h <| hs.sumAndFlag (by simp [writtenRegs]) (by simp [writtenRegs]) _ _
  | subReg x y | subnReg x y | shr x y | shl x y =>
    exact of_next h <| hs.resultAndFlag (by simp [writtenRegs]) (by simp [writtenRegs]) _ _
  | drw x y n =>
    obtain ⟨-, rfl⟩ := exec_completes hf h (execDrw_eq x y n s) (faultOf_drw x y n s)
    exact hs.setReg List.mem_cons_self _
  | loadRegs x =>
    obtain ⟨-, rfl⟩ := exec_completes hf h (execLoadRegs_eq x s) (faultOf_loadRegs x s)
    refine RegsKeptBut.advance (RegsKeptBut.setIdx (hs.setRegs fun r hr => ?_) _)
    rw [State.bytesAt_length] at hr
    exact List.mem_filter.mpr ⟨List.mem_finRange r, decide_eq_true (Nat.le_of_lt_succ hr)⟩
  | storeRegs x | skp x | sknp x => exact hk.regsKept (by simp only [writtenParts]; split <;> simp)
  | _ => exact hk.regsKept (by simp [writtenParts])

/-- Settles O50: the entry of a fault writes no register, and without a fault the named ones only. -/
theorem onlyNamedRegistersWritten : Obligations.OnlyNamedRegistersWritten := by
  intro i s t h
  rcases exec_cases h with ⟨k, -, rfl⟩ | hf
  · exact fun r _ => State.enterFault_reg s k _ r
  · exact exec_regsKept hf h

/-! ### What each operation of the state does to the invariant -/

/-- The parts of the state that the invariant speaks of. -/
def checkedParts (s : State) : Params × List Host.Cell × List Word × Mode × Option FaultRecord × Word :=
  (s.params, s.mem, s.stack, s.mode, s.fault, s.pc)

/-- The invariant speaks of no other part. -/
theorem MachineInv.of_checkedParts (hs : MachineInv s) (h : checkedParts t = checkedParts s) :
    MachineInv t := by
  simp only [checkedParts, Prod.mk.injEq] at h
  obtain ⟨hparams, hmem, hstack, hmode, hfault, hpc⟩ := h
  exact
    { memory := by rw [hparams, hmem]; exact hs.memory
      depth := by rw [State.sp, hstack]; exact hs.depth
      returns := by rw [hstack]; exact hs.returns
      record := by rw [hfault, hmode]; exact hs.record
      precise := by rw [hfault, hpc]; exact hs.precise
      pcBound := by rw [hpc, hparams]; exact hs.pcBound
      waitsAt := by rw [hmode, hpc]; exact hs.waitsAt }

/-- No fault is recorded outside mode Faulted (R43). -/
theorem MachineInv.fault_none (hs : MachineInv s) (hm : s.mode ≠ .faulted) : s.fault = none :=
  hs.record.mpr hm

theorem MachineInv.setPc (hs : MachineInv s) (hm : s.mode = .running) {w : Word} (hw : w.toNat ≤ 0x10FE) :
    MachineInv (s.setPc w) :=
  { hs with
    precise := fun r hr => by simp [hs.fault_none (by simp [hm])] at hr
    pcBound := .inl hw
    waitsAt := fun h => by simp [hm, Mode.isWaiting] at h }

theorem MachineInv.advance (hs : MachineInv s) (hm : s.mode = .running) (hpc : s.pc.toNat ≤ 4094) :
    MachineInv s.advance :=
  hs.setPc hm (by bv_omega)

theorem MachineInv.skipIf (hs : MachineInv s) (hm : s.mode = .running) (hpc : s.pc.toNat ≤ 4094) (c : Bool) :
    MachineInv (s.skipIf c) := by
  refine hs.setPc hm ?_
  split <;> bv_omega

theorem MachineInv.setStack (hs : MachineInv s) {ws : List Word} (hd : ws.length ≤ STACK_DEPTH)
    (hr : ∀ w ∈ ws, w.toNat ≤ MEM_SIZE) : MachineInv { s with stack := ws } :=
  { hs with depth := hd, returns := hr }

theorem MachineInv.pokeAll (hs : MachineInv s) {a : Nat} {bs : List Byte} (ha : a + bs.length ≤ MEM_SIZE) :
    MachineInv (s.pokeAll a bs) := by
  have hw : Memory.wf s.params (s.pokeAll a bs).mem = true := State.pokeAll_wf s a bs hs.memory ha
  rw [State.pokeAll_eq]
  exact { hs with memory := hw }

theorem MachineInv.setMode (hs : MachineInv s) (hm : s.mode ≠ .faulted) {m : Mode} (hne : m ≠ .faulted)
    (hw : m.isWaiting = true → s.pc.toNat ≤ 4094) : MachineInv (s.setMode m) :=
  { hs with
    record := iff_of_true (hs.fault_none hm) hne
    waitsAt := hw }

theorem MachineInv.enterFault (hs : MachineInv s) {o : Option Word}
    (hk : FaultRecord.consistent ⟨k, s.pc, o⟩) : MachineInv (s.enterFault k o) :=
  { hs with
    record := by simp
    precise := fun r hr => by
      obtain rfl := Option.some.inj hr
      exact ⟨rfl, hk⟩
    waitsAt := fun h => by cases h }

/-! ### Every step keeps the invariant -/

/-- What the fault table gives an instruction is a stack fault, or the lowest address above 4095 of its
operand; either agrees with a record that holds the word (R301, R302). -/
theorem faultOf_consistent (h : faultOf i s = some k) (w : Word) :
    FaultRecord.consistent ⟨k, s.pc, some w⟩ := by
  cases i with
  | call nnn | ret =>
    obtain ⟨-, ⟨⟩⟩ := Option.ite_none_right_eq_some.mp h
    exact Option.some_ne_none w
  | drw x y n =>
    obtain ⟨-, h⟩ := Option.ite_none_left_eq_some.mp h
    obtain ⟨-, ⟨⟩⟩ := Option.ite_none_right_eq_some.mp h
    exact le_max_right _ _
  | ldBVx x | storeRegs x | loadRegs x =>
    obtain ⟨-, ⟨⟩⟩ := Option.ite_none_right_eq_some.mp h
    exact le_max_right _ _
  | _ => cases h

/-- The key probe writes the count of draws only, of which the invariant does not speak (R200). -/
theorem checkedParts_probe_skipIf (b : Byte) (c : Bool) (s : State) :
    checkedParts ((isPressed b s).2.skipIf c) = checkedParts (s.skipIf c) := by
  rcases isPressed_state b s with h | h <;> rw [h]
  rfl

/-- A call's return address is at most 4096, and its depth was below 16 (R104). -/
theorem MachineInv.call (hs : MachineInv s) (hm : s.mode = .running) (hpc : s.pc.toNat ≤ 4094)
    (hsp : s.sp < STACK_DEPTH) (nnn : Addr12) :
    MachineInv { s with stack := s.stack ++ [s.pc + 2], pc := zext16 nnn } := by
  have hd : (s.stack ++ [s.pc + 2]).length ≤ STACK_DEPTH := by
    rw [List.length_append, List.length_singleton]
    exact hsp
  have hr : ∀ w ∈ s.stack ++ [s.pc + 2], w.toNat ≤ MEM_SIZE := by
    intro w hw
    rcases List.mem_append.mp hw with hw | hw
    · exact hs.returns w hw
    · rw [List.mem_singleton.mp hw]
      show (s.pc + 2).toNat ≤ 4096
      bv_omega
  exact (hs.setStack hd hr).setPc hm (by rw [zext16_toNat]; omega)

/-- A return goes to a return address (R101). -/
theorem MachineInv.ret (hs : MachineInv s) (hm : s.mode = .running) {below : List Word} {w : Word}
    (hst : s.stack = below ++ [w]) : MachineInv { s with stack := below, pc := w } := by
  have hd : below.length ≤ STACK_DEPTH := by
    calc below.length ≤ s.stack.length := by simp [hst]
      _ ≤ STACK_DEPTH := hs.depth
  have hr : ∀ v ∈ below, v.toNat ≤ MEM_SIZE := fun v hv => hs.returns v (by simp [hst, hv])
  have hw : w.toNat ≤ MEM_SIZE := hs.returns w (by simp [hst])
  exact (hs.setStack hd hr).setPc hm (hw.trans (by decide))

/-- An instruction that a fetch in mode Running gave keeps the invariant: the cases not written out move
`pc` by 2 and write only parts of which the invariant does not speak. -/
theorem exec_keeps_inv (hs : MachineInv s) (hm : s.mode = .running) (hpc : s.pc.toNat ≤ 4094)
    (h : exec i s = .next t) : MachineInv t := by
  rcases exec_cases h with ⟨k, hf, rfl⟩ | hf
  · exact hs.enterFault (faultOf_consistent hf _)
  cases i with
  | call nnn =>
    obtain ⟨hsp, rfl⟩ := exec_completes hf h (execCall_eq nnn s) (faultOf_call nnn s)
    exact hs.call hm hpc hsp nnn
  | ret =>
    obtain ⟨below, w, hst, rfl⟩ := execRet_completes hf h
    exact hs.ret hm hst
  | drw x y n =>
    obtain ⟨-, rfl⟩ := exec_completes hf h (execDrw_eq x y n s) (faultOf_drw x y n s)
    exact (hs.advance hm hpc).of_checkedParts rfl
  | ldBVx x =>
    obtain ⟨hc, rfl⟩ := exec_completes hf h (execLdBVx_eq x s) (faultOf_ldBVx x s)
    exact (hs.pokeAll hc).advance (by simpa using hm) (by simpa using hpc)
  | storeRegs x =>
    obtain ⟨hc, rfl⟩ := exec_completes hf h (execStoreRegs_eq x s) (faultOf_storeRegs x s)
    rw [← regRange_length x s] at hc
    exact ((hs.pokeAll hc).advance (by simpa using hm) (by simpa using hpc)).of_checkedParts rfl
  | loadRegs x =>
    obtain ⟨-, rfl⟩ := exec_completes hf h (execLoadRegs_eq x s) (faultOf_loadRegs x s)
    exact (hs.advance hm hpc).of_checkedParts (by simp [checkedParts])
  | jp nnn => exact of_next h <| hs.setPc hm (by rw [zext16_toNat]; omega)
  | jpV0 nnn => exact of_next h <| hs.setPc hm (by have := zext16_toNat nnn; bv_omega)
  | seImm x nn | sneImm x nn | seReg x y n | sneReg x y n => exact of_next h <| hs.skipIf hm hpc _
  | skp x | sknp x =>
    exact of_next h <| (hs.skipIf hm hpc _).of_checkedParts (checkedParts_probe_skipIf _ _ s)
  | addReg x y | subReg x y | subnReg x y | shr x y | shl x y =>
    exact of_next h <| (hs.advance hm hpc).of_checkedParts (by simp [checkedParts])
  | ldVxK x => exact of_next h <| (hs.setMode (by simp [hm]) (by simp) fun _ => hpc).of_checkedParts rfl
  | _ => exact of_next h <| (hs.advance hm hpc).of_checkedParts rfl

/-- A wait ends at the instruction after the `FX0A` that was fetched (R206). -/
theorem waitStep_keeps_inv {x : RegIdx} (hs : MachineInv s) (hm : s.mode = .waitingForKey x)
    (h : waitStep x s = .next t) : MachineInv t := by
  rcases waitStep_cases x s with ⟨-, hw⟩ | ⟨k, -, hw⟩
  · exact of_next (hw.symm.trans h) hs
  · have hpc : s.pc.toNat ≤ 4094 := hs.waitsAt (by rw [hm]; rfl)
    have hr : MachineInv (s.setMode .running) := hs.setMode (by simp [hm]) (by simp) fun _ => hpc
    exact of_next (hw.symm.trans h) <| (hr.advance rfl hpc).of_checkedParts rfl

/-- Settles O56, by the cases of a step. -/
theorem stepKeepsInv : Obligations.StepKeepsInv := by
  intro s t hs h
  rcases step_cases s with
    ⟨-, he⟩ | ⟨x, hm, he⟩ | ⟨-, -, he⟩ | ⟨-, -, w, he⟩ | ⟨hm, hpc, i, he⟩
  · exact of_next (he.symm.trans h) hs
  · exact waitStep_keeps_inv hs hm (he.symm.trans h)
  · exact of_next (he.symm.trans h) <| hs.enterFault (le_max_right _ _)
  · exact of_next (he.symm.trans h) <| hs.enterFault rfl
  · exact exec_keeps_inv hs hm hpc (he.symm.trans h)

/-! ### Every transaction keeps the invariant -/

theorem construct_inv (p : Params) : MachineInv (State.construct p) :=
  { memory := Memory.wf_nil p
    depth := Nat.zero_le _
    returns := fun _ hw => nomatch hw
    record := by simp [State.construct]
    precise := fun _ hr => nomatch hr
    pcBound := .inr rfl
    waitsAt := fun h => nomatch h }

/-- A program that passes `load`'s check ends inside memory (R335). -/
theorem load_keeps_inv {bytes : List Byte} (hs : MachineInv s) (h : load bytes s = .next t) :
    MachineInv t := by
  unfold load at h
  split at h
  · cases h
  · exact of_next h <| hs.pokeAll (by simp only [PROG_BASE, PROG_MAX, MEM_SIZE] at *; omega)

theorem transact_keeps_inv (a : Transaction) (hs : MachineInv s) : MachineInv (transact a s).1 := by
  cases a with
  | step =>
    simp only [transact]
    split
    next t h => exact stepKeepsInv s t hs h
    next => exact hs
    next => exact hs
  | load bytes =>
    simp only [transact]
    split
    next t h => exact load_keeps_inv hs h
    next => exact hs
    next => exact hs
  | tickTimers | setKeyState k p => exact hs.of_checkedParts rfl
  | displaySnapshot | soundTimerActive => exact hs

theorem runHost_keeps_inv (as : List Transaction) (hs : MachineInv s) : MachineInv (runHost as s) := by
  induction as generalizing s with
  | nil => exact hs
  | cons a rest ih => exact ih (transact_keeps_inv a hs)

/-- Settles O57, by induction on the host's transactions: construction meets the invariant, and each
transaction keeps it. -/
theorem reachableStatesMeetInv : Obligations.ReachableStatesMeetInv := by
  rintro s ⟨p, as, rfl⟩
  exact runHost_keeps_inv as (construct_inv p)

end Sys2Proof.Machine
end

section
/-! PROOFS. The statements of spec/20_memory.md: what a running step fetches and executes (O9, O10), that a
stored word is executed (O49), and which bytes an instruction may change (O52). -/

namespace Sys2Proof.Machine

variable {i : Instr} {s t : State} {k : FaultKind} {w : Word}

/-! ### A running step goes on from its fetch -/

theorem step_of_fetch_error (hm : s.mode = .running) (hf : fetch s = .error k) :
    step s = .next (s.enterFault k none) := by
  unfold step
  simp only [hm, hf]
  rfl

theorem step_of_fetch_ok (hm : s.mode = .running) (hf : fetch s = .ok w) (hd : dispatch w = .ok i) :
    step s = exec i s := by
  unfold step
  simp only [hm, hf, hd]

/-- A running step executes what the two bytes at `pc`, high byte first, dispatch to (R64, R85). -/
theorem step_of_dispatch (hm : s.mode = .running) (hpc : s.pc.toNat ≤ 4094)
    (hd : dispatch (hiLo (s.byteAt s.pc.toNat) (s.byteAt (s.pc.toNat + 1))) = .ok i) : step s = exec i s :=
  step_of_fetch_ok hm ((fetch_eq s).trans (if_pos hpc)) hd

/-- What two bytes decode to is what their big-endian word dispatches to (R66). -/
theorem dispatch_of_decode {hi lo : Byte} {rest : List Byte} (h : decode [hi, lo] = .ok (i, rest)) :
    dispatch (hiLo hi lo) = .ok i := by
  simp only [decode] at h
  cases hd : dispatch (hiLo hi lo) with
  | ok j =>
    simp only [hd, Except.ok.injEq, Prod.mk.injEq] at h
    rw [h.left]
  | error e => simp [hd] at h

/-- Settles O9: the decoder on the two bytes at `pc` is dispatch of the word that the step fetches. -/
theorem stepRunsDecodedInstruction : Obligations.StepRunsDecodedInstruction :=
  fun _ _ hm hpc h => step_of_dispatch hm hpc (dispatch_of_decode h)

/-- Of `pc` and `pc + 1`, the lowest address out of range is 4096 for `pc` = 4095, else `pc` (R65). -/
theorem fetch_above (h : 4095 ≤ s.pc.toNat) :
    fetch s = .error (.memoryFault (if s.pc.toNat = 4095 then 4096 else s.pc.toNat)) := by
  have hlow : max s.pc.toNat MEM_SIZE = if s.pc.toNat = 4095 then 4096 else s.pc.toNat := by
    simp only [MEM_SIZE]
    split <;> omega
  rw [fetch_eq, if_neg (by omega), hlow]

/-- Settles O10: a fetch checks `pc` and `pc + 1`, and its fault is entered with no word. -/
theorem fetchFaultsAboveMemory : Obligations.FetchFaultsAboveMemory := by
  refine ⟨fun s hm hpc => ?above, fun s hpc => ?last⟩
  case above => exact ⟨_, step_of_fetch_error hm (fetch_above hpc), rfl, rfl, rfl⟩
  case last => rw [fetch_eq, hpc, if_pos le_rfl]

/-! ### The bytes that a store writes, and those that it leaves -/

theorem State.byteAt_pokeAll_outside {a c : Nat} {bs : List Byte} (h : ¬ (a ≤ c ∧ c < a + bs.length)) :
    (s.pokeAll a bs).byteAt c = s.byteAt c :=
  (State.byteAt_pokeAll s a c bs).trans (if_neg h)

/-- `FX55` puts the register `k` at I + k (R243). -/
theorem State.byteAt_pokeAll_regRange {x r : RegIdx} (h : r ≤ x) (a : Nat) :
    (s.pokeAll a (regRange x s)).byteAt (a + r.val) = s.reg r := by
  have hr : r.val ≤ x.val := h
  rw [State.byteAt_pokeAll, regRange_length, if_pos (by omega), Nat.add_sub_cancel_left, regRange_getD x s r h]

/-- Settles O49: the bytes at I and I + 1 after `FX55` are V0 and V1, so a step that runs there fetches
the word that they make. -/
theorem storedWordIsExecuted : Obligations.StoredWordIsExecuted := by
  intro x s i hx hI hd
  have hfit : memOperand s + (x.val + 1) ≤ MEM_SIZE := by simp only [memOperand, MEM_SIZE]; omega
  refine ⟨_, (execStoreRegs_eq x s).trans (if_pos hfit), fun u hmem hm hpc => ?_⟩
  have h0 : u.byteAt s.idx.toNat = s.reg 0 := (hmem _).trans (State.byteAt_pokeAll_regRange (Fin.zero_le x) _)
  have h1 : u.byteAt (s.idx.toNat + 1) = s.reg 1 :=
    (hmem _).trans (State.byteAt_pokeAll_regRange (r := 1) hx _)
  refine step_of_dispatch hm (by rw [hpc]; omega) ?_
  rw [hpc, h0, h1]
  exact hd

/-- Settles O52: a fault's entry writes no byte, the two storing instructions write their own block only,
and memory is not among the parts that any other instruction writes (O51). -/
theorem onlyStoresChangeMemory : Obligations.OnlyStoresChangeMemory := by
  intro i s t a h ha
  rcases exec_cases h with ⟨k, -, rfl⟩ | hf
  · exact State.enterFault_byteAt s k _ a
  have hk : KeptBut (writtenParts i s) s t := onlyNamedPartsWritten i s t hf h
  cases i with
  | ldBVx x =>
    obtain ⟨-, rfl⟩ := exec_completes hf h (execLdBVx_eq x s) (faultOf_ldBVx x s)
    exact State.byteAt_pokeAll_outside fun ⟨hl, hu⟩ => ha ⟨hl, Nat.le_of_lt_succ hu⟩
  | storeRegs x =>
    obtain ⟨-, rfl⟩ := exec_completes hf h (execStoreRegs_eq x s) (faultOf_storeRegs x s)
    refine State.byteAt_pokeAll_outside fun ⟨hl, hu⟩ => ha ⟨hl, ?_⟩
    rw [regRange_length] at hu
    exact Nat.le_of_lt_succ hu
  | loadRegs x | skp x | sknp x => exact hk.2 .memory (by simp only [writtenParts]; split <;> simp) a
  | _ => exact hk.2 .memory (by simp [writtenParts]) a

end Sys2Proof.Machine
end

section
/-! PROOFS. The statements of spec/30_encoding.md: the decoder and the encoder are inverse to each other
(O5, O6), dispatch follows the opcode map (O7), the illegal words and their fault (O8), and words written
out from the patterns (O4). -/

namespace Sys2Proof.Machine

variable {w : Word} {i j : Instr} {op : Nibble} {s : State}

/-! ### The fields of a word that is put together from fields, and back -/

@[simp] theorem fields_of_wordNNN (op : Nibble) (nnn : Addr12) :
    (fields (wordNNN op nnn)).opcode = op ∧ (fields (wordNNN op nnn)).nnn = nnn := by
  obtain ⟨x, y, n, nn, h⟩ := fields_wordNNN op nnn
  simp only [h, and_self]

@[simp] theorem fields_of_wordXNN (op : Nibble) (x : RegIdx) (nn : Byte) :
    (fields (wordXNN op x nn)).opcode = op ∧ (fields (wordXNN op x nn)).x = x ∧
    (fields (wordXNN op x nn)).nn = nn := by
  obtain ⟨y, n, nnn, h⟩ := fields_wordXNN op x nn
  simp only [h, and_self]

@[simp] theorem fields_of_wordXYN (op : Nibble) (x y : RegIdx) (n : Nibble) :
    (fields (wordXYN op x y n)).opcode = op ∧ (fields (wordXYN op x y n)).x = x ∧
    (fields (wordXYN op x y n)).y = y ∧ (fields (wordXYN op x y n)).n = n := by
  obtain ⟨nn, nnn, h⟩ := fields_wordXYN op x y n
  simp only [h, and_self]

/-- A word is put together from its own fields and the values that dispatch found in them. -/
theorem wordNNN_fields (ho : (fields w).opcode.toNat = op.toNat) : wordNNN op (fields w).nnn = w := by
  obtain ⟨-, -, h⟩ := word_of_fields w
  rw [← BitVec.eq_of_toNat_eq ho]
  exact h

theorem wordXNN_fields {nn : Byte} (ho : (fields w).opcode.toNat = op.toNat)
    (hn : (fields w).nn.toNat = nn.toNat) : wordXNN op (fields w).x nn = w := by
  obtain ⟨-, h, -⟩ := word_of_fields w
  rw [← BitVec.eq_of_toNat_eq ho, ← BitVec.eq_of_toNat_eq hn]
  exact h

theorem wordXYN_fields {n : Nibble} (ho : (fields w).opcode.toNat = op.toNat)
    (hn : (fields w).n.toNat = n.toNat) : wordXYN op (fields w).x (fields w).y n = w := by
  obtain ⟨h, -, -⟩ := word_of_fields w
  rw [← BitVec.eq_of_toNat_eq ho, ← BitVec.eq_of_toNat_eq hn]
  exact h

/-! ### Decode of encode -/

theorem wordNNN_ne {a b : Addr12} (h : a ≠ b) : wordNNN op a ≠ wordNNN op b := fun hw =>
  h (by simpa using congrArg (fun w => (fields w).nnn) hw)

/-- Group 0's exact words are `0 : 0x0E0` and `0 : 0x0EE`, so a well-formed `0NNN` is neither. -/
theorem dispatchGroup0_wordNNN {nnn : Addr12} (h : (Instr.sys nnn).wellFormed = true) (d : Fields) :
    dispatchGroup0 (wordNNN 0#4 nnn) d = .sys d.nnn := by
  simp only [Instr.wellFormed, Bool.and_eq_true, bne_iff_ne] at h
  obtain ⟨hcls, hret⟩ := h
  exact (if_neg (wordNNN_ne hcls)).trans (if_neg (wordNNN_ne hret))

/-- A well-formed instruction's word dispatches to it. -/
theorem dispatch_encode (h : i.wellFormed = true) : dispatch (encode i) = .ok i := by
  cases i with
  | cls | ret => rfl
  | sys nnn => simp [encode, dispatch, dispatchGroup0_wordNNN h]
  | jp _ | call _ | ldI _ | jpV0 _ | seImm _ _ | sneImm _ _ | ldImm _ _ | addImm _ _ | rnd _ _
  | seReg _ _ _ | sneReg _ _ _ | drw _ _ _ => simp [encode, dispatch]
  | ldReg _ _ | orReg _ _ | andReg _ _ | xorReg _ _ | addReg _ _ | subReg _ _ | shr _ _ | subnReg _ _
  | shl _ _ => simp [encode, dispatch, dispatchGroup8]
  | skp _ | sknp _ => simp [encode, dispatch, dispatchGroupE]
  | ldVxDt _ | ldVxK _ | ldDtVx _ | ldStVx _ | addIVx _ | ldFVx _ | ldBVx _ | storeRegs _
  | loadRegs _ => simp [encode, dispatch, dispatchGroupF]

/-- Settles O5: the decoder reads the word from its bytes, and the word dispatches to the instruction. -/
theorem decodeOfEncode : Obligations.DecodeOfEncode := by
  intro i rest h
  rw [decode_wordBytes, dispatch_encode h]

/-! ### Encode of dispatch -/

theorem encode_of_dispatchGroup0 (ho : (fields w).opcode.toNat = 0) :
    encode (dispatchGroup0 w (fields w)) = w ∧ (dispatchGroup0 w (fields w)).wellFormed = true := by
  have hw : wordNNN 0 (fields w).nnn = w := wordNNN_fields ho
  unfold dispatchGroup0
  split
  next h => exact ⟨h.symm, rfl⟩
  split
  next h => exact ⟨h.symm, rfl⟩
  next hcls hret =>
    refine ⟨hw, ?_⟩
    simp only [Instr.wellFormed, Bool.and_eq_true, bne_iff_ne]
    exact ⟨fun h => hcls (by rw [← hw, h]; rfl), fun h => hret (by rw [← hw, h]; rfl)⟩

theorem encode_of_dispatchGroup8 (ho : (fields w).opcode.toNat = 0x8)
    (h : dispatchGroup8 w (fields w) = .ok i) : encode i = w ∧ i.wellFormed = true := by
  unfold dispatchGroup8 at h
  split at h <;> cases h <;> exact ⟨wordXYN_fields ho ‹_›, rfl⟩

theorem encode_of_dispatchGroupE (ho : (fields w).opcode.toNat = 0xE)
    (h : dispatchGroupE w (fields w) = .ok i) : encode i = w ∧ i.wellFormed = true := by
  unfold dispatchGroupE at h
  split at h <;> cases h <;> exact ⟨wordXNN_fields ho ‹_›, rfl⟩

theorem encode_of_dispatchGroupF (ho : (fields w).opcode.toNat = 0xF)
    (h : dispatchGroupF w (fields w) = .ok i) : encode i = w ∧ i.wellFormed = true := by
  unfold dispatchGroupF at h
  split at h <;> cases h <;> exact ⟨wordXNN_fields ho ‹_›, rfl⟩

/-- Settles O6, by cases on the opcode: the instruction's operands are the word's fields, and with the
opcode and selector that dispatch found they put the word together again. -/
theorem encodeOfDispatch : Obligations.EncodeOfDispatch := by
  intro w i h
  simp only [dispatch] at h
  -- `h_1` to `h_16` are the opcodes 0 to F
  split at h
  case h_1 ho => cases h; exact encode_of_dispatchGroup0 ho
  case h_9 ho => exact encode_of_dispatchGroup8 ho h
  case h_15 ho => exact encode_of_dispatchGroupE ho h
  case h_16 ho => exact encode_of_dispatchGroupF ho h
  case h_2 ho | h_3 ho | h_11 ho | h_12 ho => cases h; exact ⟨wordNNN_fields ho, rfl⟩
  case h_4 ho | h_5 ho | h_7 ho | h_8 ho | h_13 ho => cases h; exact ⟨wordXNN_fields ho rfl, rfl⟩
  case h_6 ho | h_10 ho | h_14 ho => cases h; exact ⟨wordXYN_fields ho rfl, rfl⟩
  case h_17 => cases h

/-! ### The opcode map -/

open Laws.InRow in
/-- An instruction's word fits the instruction's row (R87). -/
theorem encode_fits (i : Instr) : encode i &&& (opcodeRow i).mask = (opcodeRow i).value := by
  cases i with
  | cls | ret => rfl
  | sys _ | jp _ | call _ | ldI _ | jpV0 _ => exact group_NNN _ _
  | seImm _ _ | sneImm _ _ | ldImm _ _ | addImm _ _ | rnd _ _ => exact group_XNN _ _ _
  | seReg _ _ _ | sneReg _ _ _ | drw _ _ _ => exact group_XYN _ _ _ _
  | ldReg _ _ | orReg _ _ | andReg _ _ | xorReg _ _ | addReg _ _ | subReg _ _ | shr _ _ | subnReg _ _
  | shl _ _ => exact group8_XYN _ _ _ _
  | skp _ | sknp _ | ldVxDt _ | ldVxK _ | ldDtVx _ | ldStVx _ | addIVx _ | ldFVx _ | ldBVx _ | storeRegs _
  | loadRegs _ => exact groupEF_XNN _ _ _

/-- Bits that a mask keeps whole are those of the masked word. -/
theorem extract_of_mask {m v : Word} {k l : Nat} (h : w &&& m = v)
    (hm : m.extractLsb' k l = BitVec.allOnes l) : w.extractLsb' k l = v.extractLsb' k l := by
  rw [← h, BitVec.extractLsb'_and, hm, BitVec.and_allOnes]

/-- A word that fits a row dispatches to an instruction of the row: the row's value has the opcode and, in
groups 8, E and F, the selector of the word. -/
theorem dispatch_of_fits (h : w &&& (opcodeRow j).mask = (opcodeRow j).value)
    (h0 : opcodeRow j = ⟨0xF000#16, 0x0000#16⟩ → w ≠ 0x00E0#16 ∧ w ≠ 0x00EE#16) :
    ∃ i, dispatch w = .ok i ∧ opcodeRow i = opcodeRow j := by
  cases j with
  | cls | ret =>
    obtain rfl := (BitVec.and_allOnes (x := w)).symm.trans h
    exact ⟨_, rfl, rfl⟩
  | sys _ =>
    obtain ⟨hcls, hret⟩ := h0 rfl
    simp only [opcodeRow] at h
    have ho : (fields w).opcode = _ := extract_of_mask h rfl
    simp [dispatch, ho, dispatchGroup0, hcls, hret, opcodeRow]
  | jp _ | call _ | ldI _ | jpV0 _ | seImm _ _ | sneImm _ _ | ldImm _ _ | addImm _ _ | rnd _ _
  | seReg _ _ _ | sneReg _ _ _ | drw _ _ _ =>
    simp only [opcodeRow] at h
    have ho : (fields w).opcode = _ := extract_of_mask h rfl
    simp [dispatch, ho, opcodeRow]
  | ldReg _ _ | orReg _ _ | andReg _ _ | xorReg _ _ | addReg _ _ | subReg _ _ | shr _ _ | subnReg _ _
  | shl _ _ =>
    simp only [opcodeRow] at h
    have ho : (fields w).opcode = _ := extract_of_mask h rfl
    have hn : (fields w).n = _ := extract_of_mask h rfl
    simp [dispatch, ho, dispatchGroup8, hn, opcodeRow]
  | skp _ | sknp _ | ldVxDt _ | ldVxK _ | ldDtVx _ | ldStVx _ | addIVx _ | ldFVx _ | ldBVx _ | storeRegs _
  | loadRegs _ =>
    simp only [opcodeRow] at h
    have ho : (fields w).opcode = _ := extract_of_mask h rfl
    have hnn : (fields w).nn = _ := extract_of_mask h rfl
    simp [dispatch, ho, dispatchGroupE, dispatchGroupF, hnn, opcodeRow]

/-- Settles O7: a word that dispatches to an instruction is its encoding (O6), which fits its row; and a
word that fits a row has the row's opcode and selector, on which dispatch turns. -/
theorem dispatchFollowsOpcodeMap : Obligations.DispatchFollowsOpcodeMap := by
  refine ⟨fun w i h => ?fits, fun w j _ h h0 => dispatch_of_fits h h0⟩
  case fits =>
    obtain ⟨rfl, -⟩ := encodeOfDispatch w i h
    exact encode_fits i

/-! ### Illegal words: the selectors that a group does not list (R90) -/

theorem dispatchGroup8_refuses_iff :
    dispatchGroup8 w (fields w) = .error (.unimplemented w) ↔
      w.toNat % 16 ∈ [0x8, 0x9, 0xA, 0xB, 0xC, 0xD, 0xF] := by
  obtain ⟨-, -, -, hn, -, -⟩ := fields_values w
  have hlt : w.toNat % 16 < 16 := Nat.mod_lt _ (by decide)
  unfold dispatchGroup8
  rw [hn]
  generalize w.toNat % 16 = n at hlt ⊢
  interval_cases n <;> simp

theorem dispatchGroupE_refuses_iff :
    dispatchGroupE w (fields w) = .error (.unimplemented w) ↔ w.toNat % 256 ∉ [0x9E, 0xA1] := by
  obtain ⟨-, -, -, -, hnn, -⟩ := fields_values w
  unfold dispatchGroupE
  rw [hnn]
  -- a listed selector has an instruction, any other is refused
  split <;> simp_all

theorem dispatchGroupF_refuses_iff :
    dispatchGroupF w (fields w) = .error (.unimplemented w) ↔
      w.toNat % 256 ∉ [0x07, 0x0A, 0x15, 0x18, 0x1E, 0x29, 0x33, 0x55, 0x65] := by
  obtain ⟨-, -, -, -, hnn, -⟩ := fields_values w
  unfold dispatchGroupF
  rw [hnn]
  -- as in group E
  split <;> simp_all

/-- Only groups 8, E and F refuse words (R90). -/
theorem dispatch_refuses_iff :
    dispatch w = .error (.unimplemented w) ↔
      (w.toNat / 4096 = 0x8 ∧ dispatchGroup8 w (fields w) = .error (.unimplemented w)) ∨
      (w.toNat / 4096 = 0xE ∧ dispatchGroupE w (fields w) = .error (.unimplemented w)) ∨
      (w.toNat / 4096 = 0xF ∧ dispatchGroupF w (fields w) = .error (.unimplemented w)) := by
  obtain ⟨ho, -⟩ := fields_values w
  have hlt : w.toNat / 4096 < 16 := Nat.div_lt_of_lt_mul w.isLt
  simp only [dispatch, ho, Nat.mod_eq_of_lt hlt]
  generalize w.toNat / 4096 = o at hlt ⊢
  interval_cases o <;> simp

theorem step_of_illegal {e : DecodeReject} (hm : s.mode = .running) (hf : fetch s = .ok w)
    (hd : dispatch w = .error e) : step s = illegalWord w s := by
  unfold step
  simp only [hm, hf, hd]

/-- Settles O8: only groups 8, E and F refuse words, each by its own selector; a running step enters the
fault of a word that dispatch refuses. -/
theorem illegalWordsExactly : Obligations.IllegalWordsExactly := by
  refine ⟨fun w => ?illegal, fun s w hm hpc hw hd => ?fault⟩
  case illegal =>
    rw [dispatch_refuses_iff, dispatchGroup8_refuses_iff, dispatchGroupE_refuses_iff,
      dispatchGroupF_refuses_iff]
  case fault =>
    have hf : fetch s = .ok w := by rw [fetch_eq, if_pos hpc, hw]
    exact ⟨_, step_of_illegal hm hf hd, rfl, rfl, rfl⟩

/-! ### Words written out from the patterns -/

/-- Settles O4: each word's fields are computed, and dispatch turns on them. -/
theorem sampleWordsDecode : Obligations.SampleWordsDecode :=
  ⟨rfl, rfl, rfl, rfl, rfl, rfl, rfl, rfl, rfl, rfl, rfl⟩

end Sys2Proof.Machine
end

section
/-! PROOFS. The statements of spec/40_group0_and_flow.md on group 0 and on control flow: clear (O15), the
no-op words (O16), jump (O17), call (O19), return (O20), and a call with its return (O21). -/

namespace Sys2Proof.Machine

variable {s : State}

/-! ### The stack and `pc` are all that a call and a return write -/

theorem keptBut_stack (s : State) (ws : List Word) (w : Word) :
    KeptBut [.stack] s { s with stack := ws, pc := w } :=
  ((KeptBut.refl [.stack] s).setStack List.mem_cons_self ws).setPc w

theorem exec_call_pushes (nnn : Addr12) (h : s.sp < STACK_DEPTH) :
    exec (.call nnn) s = .next { s with stack := s.stack ++ [s.pc + 2], pc := zext16 nnn } :=
  (execCall_eq nnn s).trans (if_pos h)

theorem exec_call_overflows (nnn : Addr12) (h : s.sp = STACK_DEPTH) :
    exec (.call nnn) s = .next (s.enterFault (.stackFault .overflow) (some (encode (.call nnn)))) :=
  exec_of_faultOf ((faultOf_call nnn s).trans (if_neg h.not_lt))

theorem encode_call (nnn : Addr12) : encode (.call nnn) = BitVec.ofNat 16 (0x2000 + nnn.toNat) := by
  have hlt := nnn.isLt
  apply BitVec.eq_of_toNat_eq
  rw [encode, wordNNN_toNat, BitVec.toNat_ofNat, Nat.mod_eq_of_lt (by omega)]
  rfl

/-- Settles O19: a call's one check is the depth of the stack; past it the entry of the fault records the
call's own word. -/
theorem callPushesReturnAddress : Obligations.CallPushesReturnAddress := by
  refine fun nnn s => ⟨fun hsp => ?pushes, fun hsp => ?overflows⟩
  case pushes => exact ⟨_, exec_call_pushes nnn hsp, rfl, zext16_toNat nnn, keptBut_stack s _ _⟩
  case overflows =>
    rw [← encode_call]
    exact ⟨_, exec_call_overflows nnn hsp, rfl, rfl, rfl⟩

/-- Settles O20: a stack is empty or has a top. -/
theorem retPopsIntoPc : Obligations.RetPopsIntoPc := by
  refine fun s => ⟨fun below w hst => ?pops, fun hsp => ?underflows⟩
  case pops => exact ⟨_, execRet_top s below w hst, rfl, rfl, keptBut_stack s below w⟩
  case underflows => exact ⟨_, execRet_empty s (List.length_eq_zero_iff.mp hsp), rfl, rfl, rfl⟩

/-- Settles O21: the call leaves its return address on top of the old stack (O19), and the return pops
just that (O20). -/
theorem callReturnRoundTrip : Obligations.CallReturnRoundTrip := by
  intro nnn s hsp
  obtain ⟨call, -⟩ := callPushesReturnAddress nnn s
  obtain ⟨t, ht, hpushed, -, -⟩ := call hsp
  refine ⟨t, ht, fun u hu => ?_⟩
  obtain ⟨ret, -⟩ := retPopsIntoPc u
  exact ret s.stack (s.pc + 2) (hu.trans hpushed)

/-! ### Clear, no-op, jump -/

/-- Settles O15: the clear display has every pixel off, and only the display and `pc` are written. -/
theorem clsClearsDisplay : Obligations.ClsClearsDisplay := fun s =>
  ⟨_, rfl, fun x y _ _ => Display.pixel_clear x y, rfl,
    ((KeptBut.refl [.display] s).setDisp List.mem_cons_self _).advance⟩

/-- Opcode 0 is group 0, which names its two exact words first (R88). -/
theorem dispatch_of_opcode_zero {w : Word} (ho : w.toNat < 4096) (hcls : w ≠ 0x00E0#16)
    (hret : w ≠ 0x00EE#16) : dispatch w = .ok (.sys (fields w).nnn) := by
  obtain ⟨hopcode, -⟩ := fields_values w
  rw [Nat.div_eq_of_lt ho] at hopcode
  simp [dispatch, hopcode, dispatchGroup0, hcls, hret]

/-- Settles O16: every such word reaches the last arm of group 0, whose meaning is the default delta. -/
theorem sysIsNoOp : Obligations.SysIsNoOp :=
  ⟨fun _ ho hcls hret => ⟨_, dispatch_of_opcode_zero ho hcls hret⟩,
    fun _ s => ⟨_, rfl, rfl, (KeptBut.refl [] s).advance⟩⟩

/-- Settles O17: a jump writes `pc` alone, and NNN is zero-extended (R83). -/
theorem jpSetsPc : Obligations.JpSetsPc := fun nnn s =>
  ⟨_, rfl, zext16_toNat nnn, (KeptBut.refl [] s).setPc (zext16 nnn)⟩

end Sys2Proof.Machine
end

section
/-! PROOFS. The statements of spec/41_skips.md: the skips on a register and a byte (O22), and on two
registers (O23). -/

namespace Sys2Proof.Machine

variable {i : Instr} {s : State}

/-- The whole effect of a skip whose test `c` decides its rule's condition `p`: it moves `pc` past the next
word when `p` holds, and writes nothing else. -/
theorem skips_of_test {c : Bool} {p : Prop} [Decidable p] (hexec : exec i s = .next (s.skipIf c))
    (htest : c = true ↔ p) :
    ∃ t, exec i s = .next t ∧ t.pc = (if p then s.pc + 4 else s.pc + 2) ∧ KeptBut [] s t := by
  have hpc : (s.skipIf c).pc = if p then s.pc + 4 else s.pc + 2 :=
    (State.skipIf_pc s c).trans (if_congr htest rfl rfl)
  exact ⟨s.skipIf c, hexec, hpc, (KeptBut.refl [] s).skipIf c⟩

/-- Settles O22: the two tests decide `V[X] = NN` and `V[X] ≠ NN`. -/
theorem immediateSkips : Obligations.ImmediateSkips := fun _ _ _ =>
  ⟨skips_of_test rfl beq_iff_eq, skips_of_test rfl bne_iff_ne⟩

/-- Settles O23: the two tests decide `V[X] = V[Y]` and `V[X] ≠ V[Y]`, and neither reads N (R88). -/
theorem registerSkips : Obligations.RegisterSkips := fun _ _ _ _ =>
  ⟨skips_of_test rfl beq_iff_eq, skips_of_test rfl bne_iff_ne⟩

end Sys2Proof.Machine
end

section
/-! PROOFS. The statements of spec/42_register_alu.md: the immediate forms (O24), move and logic (O25), the
sum with its carry (O26), the differences (O27) and the shifts (O28) with their flags. -/

namespace Sys2Proof.Machine

variable {i : Instr} {s : State} {x : RegIdx} {b : Byte} {n m : Nat}

/-! ### The byte that a flag writes -/

theorem flagByte_decide_toNat (p : Prop) [Decidable p] :
    (flagByte (decide p)).toNat = if p then 1 else 0 :=
  (flagByte_toNat _).trans (if_congr decide_eq_true_iff rfl rfl)

theorem flagByte_getLsbD_toNat (a : Byte) (k : Nat) :
    (flagByte (a.getLsbD k)).toNat = a.toNat / 2 ^ k % 2 := by
  rw [← BitVec.testBit_toNat, Nat.testBit_eq_decide_div_mod_eq, flagByte_decide_toNat]
  split <;> omega

theorem byte_sub_toNat (a b : Byte) : (a - b).toNat = (a.toNat + 256 - b.toNat) % 256 := by
  have hb : b.toNat < 256 := b.isLt
  rw [BitVec.toNat_sub]
  congr 1
  omega

/-! ### An instruction that writes one register -/

/-- The whole effect of an instruction whose one write puts the byte `b`, of value `n`, in `V[X]`. -/
theorem loadsReg_of_setReg (hexec : exec i s = .next (s.setReg x b).advance) (hb : b.toNat = n) :
    ∃ t, exec i s = .next t ∧ LoadsReg s t x n := by
  have hx : ((s.setReg x b).advance.reg x).toNat = n := by simp [hb]
  exact ⟨_, hexec, hx, ((RegsKeptBut.refl [x] s).setReg List.mem_cons_self b).advance, rfl,
    ((KeptBut.refl [.regs] s).setReg List.mem_cons_self x b).advance⟩

/-- Settles O24: each form's one write is to `V[X]`, and the addition of bytes wraps. -/
theorem immediateLoadAndAdd : Obligations.ImmediateLoadAndAdd := fun x nn s =>
  ⟨loadsReg_of_setReg rfl rfl, loadsReg_of_setReg rfl (BitVec.toNat_add (s.reg x) nn)⟩

/-- Settles O25: each form's one write is to `V[X]`. -/
theorem moveAndLogic : Obligations.MoveAndLogic := fun x y s =>
  ⟨loadsReg_of_setReg rfl rfl, loadsReg_of_setReg rfl (BitVec.toNat_or (s.reg x) (s.reg y)),
    loadsReg_of_setReg rfl (BitVec.toNat_and (s.reg x) (s.reg y)),
    loadsReg_of_setReg rfl (BitVec.toNat_xor (s.reg x) (s.reg y))⟩

/-! ### An instruction that writes a result and a flag -/

/-- Settles O26: the flag is the last write under both settings (R146), so that it survives for X = 0xF. -/
theorem addSetsCarry : Obligations.AddSetsCarry := by
  intro x y s
  refine ⟨_, rfl, ?carry, fun hx => ?sum, ?registers, ?pc, ?parts⟩
  case carry =>
    rw [State.advance_reg, writeSumAndFlag_reg, if_pos rfl]
    exact flagByte_decide_toNat _
  case sum =>
    rw [State.advance_reg, writeSumAndFlag_reg, if_neg hx, if_pos rfl]
    exact BitVec.toNat_add _ _
  case registers =>
    exact ((RegsKeptBut.refl _ s).sumAndFlag (by simp) (by simp) _ _).advance
  case pc => rw [State.advance_pc, writeSumAndFlag_pc]
  case parts => exact ((KeptBut.refl _ s).sumAndFlag List.mem_cons_self x _ _).advance

/-- The whole effect of an instruction that writes the result `b`, of value `n`, and the flag `f`, of value
`m`, in the order of `VF_ORDER` (R146). -/
theorem writesResultAndFlag_of_bytes {f : Bool} (hexec : exec i s = .next (writeResultAndFlag x b f s).advance)
    (hb : b.toNat = n) (hf : (flagByte f).toNat = m) :
    ∃ t, exec i s = .next t ∧ WritesResultAndFlag s t x n m := by
  subst hb hf
  refine ⟨_, hexec, fun hx => ?apart, fun hx ho => ?docOrder, fun hx ho => ?flagLast, ?registers, ?pc, ?parts⟩
  case apart =>
    simp only [State.advance_reg, writeResultAndFlag_reg]
    cases s.params.vfOrder <;> simp [hx, hx.symm]
  case docOrder => simp [writeResultAndFlag_reg, ho, hx]
  case flagLast => simp [writeResultAndFlag_reg, ho]
  case registers =>
    exact ((RegsKeptBut.refl _ s).resultAndFlag (by simp) (by simp) b f).advance
  case pc => rw [State.advance_pc, writeResultAndFlag_pc]
  case parts => exact ((KeptBut.refl _ s).resultAndFlag List.mem_cons_self x b f).advance

/-- Settles O27: both forms subtract bytes, 8XY7 with the operands exchanged. -/
theorem subtractionsSetStrictFlag : Obligations.SubtractionsSetStrictFlag := fun _ _ _ =>
  ⟨writesResultAndFlag_of_bytes rfl (byte_sub_toNat _ _) (flagByte_decide_toNat _),
    writesResultAndFlag_of_bytes rfl (byte_sub_toNat _ _) (flagByte_decide_toNat _)⟩

/-- Settles O28: a shift by one halves or doubles the source byte; bit 0 is its remainder modulo 2, and bit 7
its quotient by 128. -/
theorem shiftsSetBitOut : Obligations.ShiftsSetBitOut := by
  intro x y s
  rw [← shiftOperand_toNat]
  have hlt : (shiftOperand x y s).toNat < 256 := (shiftOperand x y s).isLt
  refine ⟨writesResultAndFlag_of_bytes rfl ?half ?bit0, writesResultAndFlag_of_bytes rfl ?double ?bit7⟩
  case half => simp [Nat.shiftRight_eq_div_pow]
  case bit0 => rw [shiftedOutRight, flagByte_getLsbD_toNat, pow_zero, Nat.div_one]
  case double => simp [Nat.shiftLeft_eq]
  case bit7 =>
    rw [shiftedOutLeft, flagByte_getLsbD_toNat]
    omega

end Sys2Proof.Machine
end

section
/-! PROOFS. The statements of spec/43_index_jump_random.md: index load (O29), indexed jump (O18) and
random (O31). -/

namespace Sys2Proof.Machine

/-- Settles O29: NNN is zero-extended (R83), and I and `pc` are all that is written. -/
theorem loadIndex : Obligations.LoadIndex := fun nnn s =>
  ⟨_, rfl, zext16_toNat nnn, rfl, ((KeptBut.refl [.idx] s).setIdx fun _ => List.mem_cons_self).advance⟩

/-- The sum of R171 is below 2^16, so that the addition of words is exact (D15). -/
theorem zext16_add_byte_toNat (nnn : Addr12) (b : Byte) :
    (zext16 nnn + b.setWidth 16).toNat = nnn.toNat + b.toNat := by
  have hn : nnn.toNat < 4096 := nnn.isLt
  have hb : b.toNat < 256 := b.isLt
  rw [BitVec.toNat_add, zext16_toNat, BitVec.toNat_setWidth_of_le (by decide), Nat.mod_eq_of_lt (by omega)]

/-- Settles O18: the jump writes `pc` alone. -/
theorem jpV0SetsExactSum : Obligations.JpV0SetsExactSum := fun nnn s =>
  ⟨_, rfl, zext16_add_byte_toNat nnn (s.reg 0), (KeptBut.refl [] s).setPc _⟩

/-- Settles O31: whatever the draw is, the mask is its last operation, and a mask of 0 leaves nothing of it. -/
theorem randomIsMaskedDraw : Obligations.RandomIsMaskedDraw := by
  intro x nn s
  have hx : (s.setReg x (Config.randomByte s.draws &&& nn)).countDraw.advance.reg x =
      Config.randomByte s.draws &&& nn := State.reg_setReg_same s x _
  refine ⟨_, rfl, hx, fun hnn => ?zeroMask, ?registers, rfl, rfl, ?parts⟩
  case zeroMask =>
    rw [hx, hnn]
    exact BitVec.and_zero
  case registers => exact (RegsKeptBut.refl [x] s).setReg List.mem_cons_self _
  case parts =>
    exact (((KeptBut.refl _ s).setReg List.mem_cons_self x _).countDraw (by simp)).advance

end Sys2Proof.Machine
end

section
/-! PROOFS. The statements of spec/44_draw.md: a draw's pixels and collision (O32), its fault (O33), a draw
made twice (O34), and the output transactions, with the one of spec/46_timers.md (O43). -/

namespace Sys2Proof.Machine

variable {x y : RegIdx} {n : Nibble} {s t : State} {px py : Nat}

/-! ### What a draw writes, in the terms of the sprite bits -/

/-- The display and the collision that a draw ends with (R180). -/
def drawn (x y : RegIdx) (n : Nibble) (s : State) : Canvas :=
  drawRows (drawOrigin x y s).1 (drawOrigin x y s).2 (s.bytesAt (memOperand s) (drawRowCount y n s))
    ⟨s.disp, false⟩

/-- A draw whose rows are in memory passes its check. -/
theorem exec_drw_draws (x : RegIdx) (h : SpriteInMemory s y n) :
    exec (.drw x y n) s =
      .next ((s.setDisp (drawn x y n s).disp).setReg regF (flagByte (drawn x y n s).hit)).advance :=
  (execDrw_eq x y n s).trans (if_pos (spriteInMemory_reads s y n h))

theorem drawn_pixel_of_spriteBit (h : SpriteBit s x y n px py) :
    (drawn x y n s).disp.pixel px py = !s.disp.pixel px py := by
  obtain ⟨pixel, -⟩ := drawRows_spec (drawOrigin x y s).1 _ _ ⟨s.disp, false⟩ (drawRowCount_fits s x y n)
  exact (pixel px py).trans (if_pos ((spriteBit_iff s x y n px py).mp h))

theorem drawn_pixel_of_not_spriteBit (h : ¬ SpriteBit s x y n px py) :
    (drawn x y n s).disp.pixel px py = s.disp.pixel px py := by
  obtain ⟨pixel, -⟩ := drawRows_spec (drawOrigin x y s).1 _ _ ⟨s.disp, false⟩ (drawRowCount_fits s x y n)
  exact (pixel px py).trans (if_neg (mt (spriteBit_iff s x y n px py).mpr h))

theorem drawn_hit_iff :
    (drawn x y n s).hit = true ↔ ∃ px py, SpriteBit s x y n px py ∧ s.disp.pixel px py = true := by
  obtain ⟨-, hit⟩ := drawRows_spec (drawOrigin x y s).1 _ _ ⟨s.disp, false⟩ (drawRowCount_fits s x y n)
  refine hit.trans ⟨?_, ?_⟩
  · rintro (⟨⟨⟩⟩ | ⟨px, r, hr, hbit, hlit⟩)
    exact ⟨px, _, (spriteBit_iff s x y n px _).mpr ⟨r, hr, rfl, hbit⟩, hlit⟩
  · rintro ⟨px, py, hbit, hlit⟩
    obtain ⟨r, hr, rfl, hrow⟩ := (spriteBit_iff s x y n px py).mp hbit
    exact .inr ⟨px, r, hr, hrow, hlit⟩

/-- Settles O32: the display and VF are written from the canvas, whose pixels and collision follow the
sprite bits. -/
theorem drawTogglesSprite : Obligations.DrawTogglesSprite := by
  intro x y n s h
  refine ⟨_, exec_drw_draws x h, fun _ _ => drawn_pixel_of_spriteBit,
    fun _ _ => drawn_pixel_of_not_spriteBit, fun hlit => ?struck, fun hclear => ?unstruck, ?registers, rfl,
    ?parts⟩
  case struck => simp [drawn_hit_iff.mpr hlit, flagByte]
  case unstruck => simp [Bool.eq_false_iff.mpr (mt drawn_hit_iff.mp hclear), flagByte]
  case registers => exact (RegsKeptBut.refl [regF] s).setReg List.mem_cons_self _
  case parts =>
    exact (((KeptBut.refl _ s).setDisp (by simp) _).setReg List.mem_cons_self regF _).advance

/-! ### A row above memory -/

theorem encode_drw (x y : RegIdx) (n : Nibble) :
    encode (.drw x y n) = BitVec.ofNat 16 (0xD000 + x.val * 256 + y.val * 16 + n.toNat) := by
  have hn := n.isLt
  apply BitVec.eq_of_toNat_eq
  rw [encode, wordXYN_toNat, BitVec.toNat_ofNat, Nat.mod_eq_of_lt (by omega)]
  rfl

/-- When row `r` is read and is the first above memory, the fault table gives its address (R180, R301). -/
theorem faultOf_drw_first_row_above (x : RegIdx) {r : Nat} (hr : r < drawRowCount y n s)
    (habove : 4095 < s.idx.toNat + r) (hbelow : ∀ q < r, s.idx.toNat + q ≤ 4095) :
    faultOf (.drw x y n) s = some (.memoryFault (s.idx.toNat + r)) := by
  have hchecked : ¬(drawRowCount y n s = 0 ∨ memOperand s + drawRowCount y n s ≤ MEM_SIZE) := by
    simp only [memOperand, MEM_SIZE]
    omega
  have hlowest : max (memOperand s) MEM_SIZE = s.idx.toNat + r := by
    simp only [memOperand, MEM_SIZE]
    cases r with
    | zero => omega
    | succ q =>
      have hq := hbelow q (Nat.lt_succ_self q)
      omega
  rw [faultOf_drw, if_neg hchecked, hlowest]

/-- Settles O33: an on-screen row is read, and the entry of the fault records the draw's own word. -/
theorem drawFaultsAboveMemory : Obligations.DrawFaultsAboveMemory := by
  intro x y n s r hn hscreen habove hbelow
  have hread : r < drawRowCount y n s := by
    simp only [drawRowCount, DISP_H]
    omega
  rw [← encode_drw]
  exact ⟨_, exec_of_faultOf (faultOf_drw_first_row_above x hread habove hbelow), rfl, rfl, rfl⟩

/-! ### A draw made twice -/

/-- The sprite bits depend on VX, VY, I and memory only. -/
theorem spriteBit_congr (hx : t.reg x = s.reg x) (hy : t.reg y = s.reg y) (hidx : t.idx = s.idx)
    (hmem : ∀ a, t.byteAt a = s.byteAt a) : SpriteBit t x y n px py ↔ SpriteBit s x y n px py := by
  simp only [SpriteBit, hx, hy, hidx, hmem]

theorem spriteInMemory_congr (hy : t.reg y = s.reg y) (hidx : t.idx = s.idx) :
    SpriteInMemory t y n ↔ SpriteInMemory s y n := by
  simp only [SpriteInMemory, hy, hidx]

/-- Settles O34: the first draw (O32) leaves the second (O32) the same sprite bits, on pixels that it has
toggled; so each is toggled back, and the second collides where the first found a pixel clear. -/
theorem doubleDrawRestores : Obligations.DoubleDrawRestores := by
  intro x y n s h
  obtain ⟨t, ht, toggled, kept, -, -, -, -, -, parts⟩ := drawTogglesSprite x y n s h
  refine ⟨t, ht, fun hx hy => ?_⟩
  have hidx : t.idx = s.idx := parts .idx (by simp)
  have hmem : ∀ a, t.byteAt a = s.byteAt a := parts .memory (by simp)
  have hbit : ∀ px py, SpriteBit t x y n px py ↔ SpriteBit s x y n px py := fun _ _ =>
    spriteBit_congr hx hy hidx hmem
  have hlit : (∃ px py, SpriteBit t x y n px py ∧ t.disp.pixel px py = true) ↔
      ∃ px py, SpriteBit s x y n px py ∧ s.disp.pixel px py = false :=
    exists₂_congr fun px py => by
      rw [hbit]
      exact and_congr_right fun hb => by rw [toggled px py hb, Bool.not_eq_true']
  obtain ⟨u, hu, toggled', kept', struck, unstruck, -⟩ :=
    drawTogglesSprite x y n t ((spriteInMemory_congr hy hidx).mpr h)
  rw [hlit] at struck unstruck
  refine ⟨u, hu, fun px py => ?_, struck, unstruck⟩
  by_cases hb : SpriteBit s x y n px py
  · rw [toggled' px py ((hbit px py).mpr hb), toggled px py hb, Bool.not_not]
  · rw [kept' px py (mt (hbit px py).mp hb), kept px py hb]

/-! ### The output transactions -/

theorem soundTimerActive_eq (s : State) : soundTimerActive s = decide (s.st.toNat ≠ 0) := by
  rw [soundTimerActive, Bool.eq_iff_iff, bne_iff_ne, decide_eq_true_iff]
  exact not_congr BitVec.toNat_inj.symm

/-- Settles O43: each answers from the state it leaves as it was. -/
theorem outputsChangeNothing : Obligations.OutputsChangeNothing := fun s =>
  ⟨rfl, congrArg (fun b => (s, Reply.active b)) (soundTimerActive_eq s)⟩

end Sys2Proof.Machine
end

section
/-! PROOFS. The statements of spec/45_keypad.md: the host's key write (O35), the key skips (O36), the entry
of a wait (O37), the waiting step (O38), and what ends a wait (O39, O40). -/

namespace Sys2Proof.Machine

variable {i : Instr} {s u : State} {t : RegIdx} {a : Transaction}

/-! ### The host's key write -/

theorem flags_get_set (v : KeyVector) (k j : KeyCode) (p : Bool) :
    (v.set k.val p k.isLt).get j = if j = k then p else v.get j := by
  simp only [Vector.get_eq_getElem, Vector.getElem_set, Fin.ext_iff, eq_comm]

theorem setKeyState_keys_get (k j : KeyCode) (p : Bool) (s : State) :
    (setKeyState k p s).keys.get j = if j = k then p else s.keys.get j :=
  flags_get_set s.keys k j p

/-- An edge is latched by the press of a key that is not held, and by nothing else (R203). -/
theorem setKeyState_edge_get (k j : KeyCode) (p : Bool) (s : State) :
    (setKeyState k p s).edge.get j =
      if j = k then s.edge.get k || (p && !s.keys.get k) else s.edge.get j := by
  cases hp : p && !s.keys.get k with
  | true => simp [setKeyState, hp, flags_get_set]
  | false =>
    have hkept : (setKeyState k p s).edge = s.edge := by simp [setKeyState, hp]
    rw [hkept, Bool.or_false]
    split
    next hj => rw [hj]
    next => rfl

theorem KeptBut.setKeyState {l : List Part} (hk : KeptBut l s u) (hl : .keypad ∈ l) (k : KeyCode) (p : Bool) :
    KeptBut l s (setKeyState k p u) :=
  hk.write hl rfl fun q hq => by cases q <;> simp_all [Part.same, Machine.setKeyState, State.reg, State.byteAt]

/-- Settles O35: the level and the edge of one key are all that the write touches. -/
theorem setKeyStateLatchesEdge : Obligations.SetKeyStateLatchesEdge := by
  refine fun k p s => ⟨?level, ?edge, fun j hj => ⟨?otherLevel, ?otherEdge⟩, rfl, ?parts⟩
  case level => rw [setKeyState_keys_get, if_pos rfl]
  case edge => rw [setKeyState_edge_get, if_pos rfl]
  case otherLevel => rw [setKeyState_keys_get, if_neg hj]
  case otherEdge => rw [setKeyState_edge_get, if_neg hj]
  case parts => exact (KeptBut.refl _ s).setKeyState List.mem_cons_self k p

/-! ### The key skips -/

theorem exec_skp_of_probe {x : RegIdx} {b : Bool} (h : isPressed (s.reg x) s = (b, u)) :
    exec (.skp x) s = .next (u.skipIf b) := by
  simp only [exec, execSkp, h]

theorem exec_sknp_of_probe {x : RegIdx} {b : Bool} (h : isPressed (s.reg x) s = (b, u)) :
    exec (.sknp x) s = .next (u.skipIf (!b)) := by
  simp only [exec, execSknp, h]

/-- The whole effect of a skip whose test is a free value: it takes that draw, and is else a skip as any
other. -/
theorem drawsAndSkips_of_test {c : Bool} {p : Prop} [Decidable p]
    (hexec : exec i s = .next (s.countDraw.skipIf c)) (htest : c = true ↔ p) :
    ∃ t, exec i s = .next t ∧ t.draws = s.draws + 1 ∧ t.pc = (if p then s.pc + 4 else s.pc + 2) ∧
      KeptBut [.draws] s t := by
  have hpc : (s.countDraw.skipIf c).pc = if p then s.pc + 4 else s.pc + 2 :=
    (State.skipIf_pc s.countDraw c).trans (if_congr htest rfl rfl)
  exact ⟨_, hexec, rfl, hpc, ((KeptBut.refl _ s).countDraw List.mem_cons_self).skipIf c⟩

/-- Settles O36: the two skips test the probe's answer and its opposite; the probe reads the level of a key
that VX names, and draws its answer else (R200). -/
theorem keySkips : Obligations.KeySkips := by
  refine fun x s => ⟨fun hx => ?named, fun hx => ?unnamed⟩
  case named =>
    have hprobe := isPressed_key (s.reg x) s hx
    exact ⟨skips_of_test (exec_skp_of_probe hprobe) Iff.rfl,
      skips_of_test (exec_sknp_of_probe hprobe) (iff_of_eq (Bool.not_eq_true' _))⟩
  case unnamed =>
    have hprobe := isPressed_draw (s.reg x) s (by omega)
    exact ⟨drawsAndSkips_of_test (exec_skp_of_probe hprobe) Iff.rfl,
      drawsAndSkips_of_test (exec_sknp_of_probe hprobe) (iff_of_eq (Bool.not_eq_true' _))⟩

/-! ### A wait: its entry and its step -/

theorem State.clearEdges_edge_get (s : State) (k : KeyCode) : s.clearEdges.edge.get k = false :=
  Vector.get_replicate 16 false k

/-- Settles O37: clearing the edges and writing the mode are all that the entry does. -/
theorem waitForKeyEntry : Obligations.WaitForKeyEntry := fun x s =>
  ⟨_, rfl, s.clearEdges_edge_get, rfl, rfl, rfl, rfl,
    ((KeptBut.refl _ s).clearEdges List.mem_cons_self).setMode (by simp) (.waitingForKey x)⟩

/-- A waiting step with no edge latched changes nothing (R205). -/
theorem step_of_no_edge (hm : s.mode = .waitingForKey t) (he : ∀ k, s.edge.get k = false) :
    step s = .next s := by
  rcases waitStep_cases t s with ⟨-, hw⟩ | ⟨k, hk, -⟩
  · exact (step_waiting hm).trans hw
  · simp [he] at hk

/-- The state in which the key `k` completes a wait into `V[t]` (R206). -/
def completedWait (t : RegIdx) (k : KeyCode) (s : State) : State :=
  ((s.setReg t (BitVec.ofNat 8 k.val)).advance.setMode .running).clearEdges.countDraw

/-- A waiting step with an edge latched completes with some latched key (R206). -/
theorem step_of_edge (hm : s.mode = .waitingForKey t) (he : ∃ k, s.edge.get k = true) :
    ∃ k, s.edge.get k = true ∧ step s = .next (completedWait t k s) := by
  rcases waitStep_cases t s with ⟨hnone, -⟩ | ⟨k, hk, hw⟩
  · obtain ⟨k, hk⟩ := he
    simp [hnone] at hk
  · exact ⟨k, hk, (step_waiting hm).trans hw⟩

/-- A key code fits a byte (R206). -/
theorem completedWait_reg_toNat (t : RegIdx) (k : KeyCode) (s : State) :
    ((completedWait t k s).reg t).toNat = k.val := by
  have hk : k.val < 16 := k.isLt
  have hreg : (completedWait t k s).reg t = BitVec.ofNat 8 k.val := State.reg_setReg_same s t _
  rw [hreg, BitVec.toNat_ofNat, Nat.mod_eq_of_lt (by omega)]

theorem completedWait_regsKept (t : RegIdx) (k : KeyCode) (s : State) :
    RegsKeptBut [t] s (completedWait t k s) :=
  ((RegsKeptBut.refl [t] s).setReg List.mem_cons_self (BitVec.ofNat 8 k.val)).advance

theorem completedWait_edge (t : RegIdx) (k : KeyCode) (s : State) (j : KeyCode) :
    (completedWait t k s).edge.get j = false := by
  rw [completedWait, State.countDraw_edge, State.clearEdges_edge_get]

theorem completedWait_keptBut (t : RegIdx) (k : KeyCode) (s : State) :
    KeptBut [.regs, .keypad, .modeAndFault, .draws] s (completedWait t k s) :=
  (((((KeptBut.refl _ s).setReg (by simp) t _).advance).setMode (by simp) _).clearEdges (by simp)).countDraw
    (by simp)

/-- Settles O38: an edge is latched or none is, and the completed wait is a few writes of known effect. -/
theorem waitingStep : Obligations.WaitingStep := by
  refine fun t s hm => ⟨step_of_no_edge hm, fun he => ?completes⟩
  obtain ⟨k, hk, hstep⟩ := step_of_edge hm he
  exact ⟨k, completedWait t k s, hk, hstep, completedWait_reg_toNat t k s, completedWait_regsKept t k s, rfl,
    rfl, rfl, completedWait_edge t k s, rfl, rfl, completedWait_keptBut t k s⟩

/-! ### What ends a wait -/

theorem transact_step_of_next (h : step s = .next u) : (transact .step s).1 = u := by
  simp only [transact, h]

/-- Settles O40: the press latches that key's edge and no other, so that the step (O38) can complete with
that key only. -/
theorem keyPressCompletesWait : Obligations.KeyPressCompletesWait := by
  intro t k s hm hnone hup
  have hedge : ∀ j, (setKeyState k true s).edge.get j = true ↔ j = k := fun j => by
    simp [setKeyState_edge_get, hnone, hup]
  obtain ⟨j, hj, hstep⟩ := step_of_edge (s := setKeyState k true s) hm ⟨k, (hedge k).mpr rfl⟩
  obtain rfl : j = k := (hedge j).mp hj
  have hrun : runHost [.setKeyState j true, .step] s = completedWait t j (setKeyState j true s) :=
    transact_step_of_next hstep
  rw [hrun]
  exact ⟨rfl, completedWait_reg_toNat t j _, rfl⟩

/-- The state `u` still waits for register `t` as the state `s` did: no edge is latched, and what R205 keeps
through a wait is kept. -/
structure StillWaiting (t : RegIdx) (s u : State) : Prop where
  mode : u.mode = .waitingForKey t
  edge : ∀ k, u.edge.get k = false
  pc : u.pc = s.pc
  v : u.v = s.v
  idx : u.idx = s.idx
  stack : u.stack = s.stack
  disp : u.disp = s.disp

/-- A load writes memory only. -/
theorem StillWaiting.load (hw : StillWaiting t s u) (bytes : List Byte) :
    StillWaiting t s (transact (.load bytes) u).1 := by
  by_cases hsize : bytes.length > PROG_MAX
  · simpa [transact, Machine.load, hsize] using hw
  · obtain ⟨mode, edge, pc, v, idx, stack, disp⟩ := hw
    constructor <;> simpa [transact, Machine.load, hsize]

/-- Only a press latches an edge (R203). -/
theorem StillWaiting.release (hw : StillWaiting t s u) (k : KeyCode) :
    StillWaiting t s (setKeyState k false u) where
  edge j := by simp [setKeyState_edge_get, hw.edge]
  __ := hw

/-- No transaction but the press of a key touches what a wait keeps (R205, R312). -/
theorem StillWaiting.transact (hw : StillWaiting t s u) (ha : ∀ k, a ≠ .setKeyState k true) :
    StillWaiting t s (transact a u).1 := by
  cases a with
  | step =>
    rw [transact_step_of_next (step_of_no_edge hw.mode hw.edge)]
    exact hw
  | load bytes => exact hw.load bytes
  | setKeyState k p =>
    cases p with
    | true => exact absurd rfl (ha k)
    | false => exact hw.release k
  | tickTimers => exact { hw with }
  | displaySnapshot | soundTimerActive => exact hw

theorem StillWaiting.runHost {as : List Transaction} (hw : StillWaiting t s u)
    (has : ∀ k, Transaction.setKeyState k true ∉ as) : StillWaiting t s (runHost as u) := by
  induction as generalizing u with
  | nil => exact hw
  | cons a rest ih =>
    have ha : ∀ k, a ≠ .setKeyState k true := fun k e => has k (e ▸ List.mem_cons_self)
    exact ih (hw.transact ha) fun k hk => has k (List.mem_cons_of_mem a hk)

/-- Settles O39, by induction on the host's transactions: none of them touches what a wait keeps. -/
theorem waitEndsOnlyByKeyPress : Obligations.WaitEndsOnlyByKeyPress := by
  intro as t s hm he has
  have hstart : StillWaiting t s s := ⟨hm, he, rfl, rfl, rfl, rfl, rfl⟩
  obtain ⟨mode, -, pc, v, idx, stack, disp⟩ := hstart.runHost has
  exact ⟨mode, pc, v, idx, stack, disp⟩

end Sys2Proof.Machine
end

section
/-! PROOFS. The statements of spec/46_timers.md: the timer instructions (O41), the host's ticks (O42), and that
a program does not observe the sound timer (O54). -/

namespace Sys2Proof.Machine

variable {i : Instr} {s t u v : State} {b c : Byte}

/-! ### The timer instructions -/

/-- The sound timer is active exactly when ST is not 0 (R224). -/
theorem soundTimerActive_eq_decide_ne (s : State) : soundTimerActive s = decide (s.st ≠ 0) := by
  rw [soundTimerActive, Bool.eq_iff_iff, bne_iff_ne, decide_eq_true_iff]

/-- Settles O41: each form has one write, to `V[X]`, to DT or to ST. -/
theorem timerInstructions : Obligations.TimerInstructions := by
  refine fun x s => ⟨?readDt, ⟨_, rfl, rfl, rfl, rfl, ?writeDt⟩, ⟨_, rfl, rfl, rfl, rfl, ?active, ?writeSt⟩⟩
  case readDt => exact loadsReg_of_setReg rfl rfl
  case writeDt => exact ((KeptBut.refl _ s).setDt List.mem_cons_self (s.reg x)).advance
  case active => exact soundTimerActive_eq_decide_ne _
  case writeSt => exact ((KeptBut.refl _ s).setSt List.mem_cons_self (s.reg x)).advance

/-! ### The host's ticks -/

/-- Ticks are writes of the two timers, in every mode (R223). -/
theorem runHost_ticks (n : Nat) (s : State) :
    runHost (List.replicate n .tickTimers) s = (s.setDt (tickDown^[n] s.dt)).setSt (tickDown^[n] s.st) := by
  induction n generalizing s with
  | zero => rfl
  | succ n ih => exact ih (tickTimers s)

theorem iterate_tickDown_toNat (n : Nat) (b : Byte) : (tickDown^[n] b).toNat = b.toNat - n := by
  induction n generalizing b with
  | zero => rfl
  | succ n ih => rw [Function.iterate_succ_apply, ih, tickDown_toNat, Nat.sub_sub, Nat.add_comm]

/-- Settles O42: the ticks write the two timers only, and each takes one off, floored at 0. -/
theorem ticksCountDownToZero : Obligations.TicksCountDownToZero := by
  intro n s
  rw [runHost_ticks]
  exact ⟨iterate_tickDown_toNat n s.dt, iterate_tickDown_toNat n s.st, rfl,
    ((KeptBut.refl _ s).setDt List.mem_cons_self _).setSt List.mem_cons_self _⟩

/-! ### What the shared operations do does not depend on ST -/

theorem State.pokeAll_setSt (s : State) (b : Byte) (a : Nat) (bs : List Byte) :
    (s.setSt b).pokeAll a bs = (s.pokeAll a bs).setSt b := by
  induction bs generalizing s a with
  | nil => rfl
  | cons d ds ih => exact ih (s.poke a d) (a + 1)

theorem writeSumAndFlag_setSt (x : RegIdx) (r : Byte) (f : Bool) (s : State) (b : Byte) :
    writeSumAndFlag x r f (s.setSt b) = (writeSumAndFlag x r f s).setSt b := by
  unfold writeSumAndFlag
  rw [State.setSt_params]
  cases s.params.vfOrder <;> rfl

theorem writeResultAndFlag_setSt (x : RegIdx) (r : Byte) (f : Bool) (s : State) (b : Byte) :
    writeResultAndFlag x r f (s.setSt b) = (writeResultAndFlag x r f s).setSt b := by
  unfold writeResultAndFlag
  rw [State.setSt_params]
  cases s.params.vfOrder <;> rfl

theorem isPressed_setSt (k : Byte) (s : State) (b : Byte) :
    isPressed k (s.setSt b) = ((isPressed k s).1, (isPressed k s).2.setSt b) := by
  by_cases hk : k.toNat < 16
  · rw [isPressed_key k s hk, isPressed_key k (s.setSt b) hk]
    rfl
  · rw [isPressed_draw k s hk, isPressed_draw k (s.setSt b) hk]
    rfl

/-- The fault table (R301) does not read ST. -/
theorem faultOf_setSt (i : Instr) (s : State) (b : Byte) : faultOf i (s.setSt b) = faultOf i s := by
  cases i <;> rfl

/-! ### A program does not observe ST -/

/-- A call that answers `u` answers the same but for ST, when from the other ST it writes `u` but for ST. -/
theorem answers_setSt {r : Host.Outcome State Fault Refusal}
    (h : (.next u : Host.Outcome State Fault Refusal) = .next t) (hr : r = .next (u.setSt c)) :
    ∃ c, r = .next (t.setSt c) :=
  ⟨c, Host.Outcome.next.inj h ▸ hr⟩

/-- The same for an instruction that ends with the default delta of `pc` (R86). -/
theorem answers_advance_setSt {r : Host.Outcome State Fault Refusal}
    (h : (.next u.advance : Host.Outcome State Fault Refusal) = .next t) (hr : r = .next v.advance)
    (hv : v = u.setSt c) : ∃ c, r = .next (t.setSt c) :=
  answers_setSt (c := c) h (hr.trans (hv ▸ rfl))

/-- An instruction that raises no fault writes the same whatever ST holds; only `FX18` writes ST (R222). -/
theorem exec_setSt_of_no_fault (b : Byte) (hf : faultOf i s = none) (h : exec i s = .next t) :
    ∃ c, exec i (s.setSt b) = .next (t.setSt c) := by
  cases i with
  | call nnn =>
    obtain ⟨hc, rfl⟩ := exec_completes hf h (execCall_eq nnn s) (faultOf_call nnn s)
    exact ⟨b, (execCall_eq nnn (s.setSt b)).trans (if_pos hc)⟩
  | ret =>
    obtain ⟨below, w, hs, rfl⟩ := execRet_completes hf h
    exact ⟨b, execRet_top (s.setSt b) below w hs⟩
  | drw x y n =>
    obtain ⟨hc, rfl⟩ := exec_completes hf h (execDrw_eq x y n s) (faultOf_drw x y n s)
    exact ⟨b, (execDrw_eq x y n (s.setSt b)).trans (if_pos hc)⟩
  | ldBVx x =>
    obtain ⟨hc, rfl⟩ := exec_completes hf h (execLdBVx_eq x s) (faultOf_ldBVx x s)
    refine ⟨b, (execLdBVx_eq x (s.setSt b)).trans ((if_pos hc).trans ?_)⟩
    rw [State.pokeAll_setSt]
    rfl
  | storeRegs x =>
    obtain ⟨hc, rfl⟩ := exec_completes hf h (execStoreRegs_eq x s) (faultOf_storeRegs x s)
    refine ⟨b, (execStoreRegs_eq x (s.setSt b)).trans ((if_pos hc).trans ?_)⟩
    rw [State.pokeAll_setSt]
    rfl
  | loadRegs x =>
    obtain ⟨hc, rfl⟩ := exec_completes hf h (execLoadRegs_eq x s) (faultOf_loadRegs x s)
    exact ⟨b, (execLoadRegs_eq x (s.setSt b)).trans (if_pos hc)⟩
  | addReg x y =>
    exact answers_advance_setSt h rfl (writeSumAndFlag_setSt x _ _ s b)
  | subReg x y | subnReg x y | shr x y | shl x y =>
    exact answers_advance_setSt h rfl (writeResultAndFlag_setSt x _ _ s b)
  | skp x =>
    have hr := exec_skp_of_probe (s := s.setSt b) (isPressed_setSt (s.reg x) s b)
    exact answers_setSt (c := b) h hr
  | sknp x =>
    have hr := exec_sknp_of_probe (s := s.setSt b) (isPressed_setSt (s.reg x) s b)
    exact answers_setSt (c := b) h hr
  | ldStVx x => exact answers_setSt (c := s.reg x) h rfl
  | _ => exact answers_setSt (c := b) h rfl

/-- An instruction does not observe ST: it raises the same fault, or writes the same. -/
theorem exec_setSt (b : Byte) (h : exec i s = .next t) : ∃ c, exec i (s.setSt b) = .next (t.setSt c) := by
  rcases exec_cases h with ⟨k, hf, rfl⟩ | hf
  · exact ⟨b, exec_of_faultOf ((faultOf_setSt i s b).trans hf)⟩
  · exact exec_setSt_of_no_fault b hf h

/-- A waiting step does not observe ST: the latched keys and the pick among them do not depend on it (R206). -/
theorem waitStep_setSt (b : Byte) {r : RegIdx} (h : waitStep r s = .next t) :
    ∃ c, waitStep r (s.setSt b) = .next (t.setSt c) := by
  have hkeys : latchedKeys (s.setSt b) = latchedKeys s := rfl
  unfold waitStep at h ⊢
  rw [hkeys]
  cases hk : latchedKeys s with
  | nil =>
    rw [hk] at h
    exact answers_setSt (c := b) h rfl
  | cons k ks =>
    rw [hk] at h
    exact answers_setSt (c := b) h rfl

theorem step_of_faulted (hm : s.mode = .faulted) : step s = .next s := by
  unfold step
  simp only [hm]
  rfl

/-- Settles O54: the mode, the fetched word and its dispatch do not read ST, and neither does the rest of a
step in any mode. -/
theorem soundTimerUnobserved : Obligations.SoundTimerUnobserved := by
  intro s t b h
  show ∃ c, step (s.setSt b) = .next (t.setSt c)
  cases hm : s.mode with
  | faulted =>
    exact answers_setSt ((step_of_faulted hm).symm.trans h) (step_of_faulted (s := s.setSt b) hm)
  | waitingForKey r =>
    rw [step_waiting (s := s.setSt b) hm]
    exact waitStep_setSt b ((step_waiting hm).symm.trans h)
  | running =>
    cases hf : fetch s with
    | error k =>
      exact answers_setSt ((step_of_fetch_error hm hf).symm.trans h)
        (step_of_fetch_error (s := s.setSt b) hm hf)
    | ok w =>
      cases hd : dispatch w with
      | error e =>
        exact answers_setSt ((step_of_illegal hm hf hd).symm.trans h)
          (step_of_illegal (s := s.setSt b) hm hf hd)
      | ok i =>
        rw [step_of_fetch_ok (s := s.setSt b) hm hf hd]
        exact exec_setSt b ((step_of_fetch_ok hm hf hd).symm.trans h)

end Sys2Proof.Machine
end

section
/-! PROOFS. The statements of spec/47_index_memory.md: index arithmetic (O30), the decimal digits (O44), the
register block stored (O45), loaded (O46) and read back (O48), and a transfer above memory (O47). -/

namespace Sys2Proof.Machine

variable {i : Instr} {s t : State} {k : FaultKind} {w : Word} {n : Nat}

/-! ### An instruction that writes I -/

/-- The whole effect of an instruction whose one write puts the word `w`, of value `n`, in I. -/
theorem idxEffect_of_setIdx (hexec : exec i s = .next (s.setIdx w).advance) (hw : w.toNat = n) :
    ∃ t, exec i s = .next t ∧ t.idx.toNat = n ∧ t.pc = s.pc + 2 ∧ KeptBut [.idx] s t :=
  ⟨_, hexec, hw, rfl, ((KeptBut.refl [.idx] s).setIdx fun _ => List.mem_cons_self).advance⟩

theorem word_add_byte_toNat (w : Word) (b : Byte) :
    (w + b.setWidth 16).toNat = (w.toNat + b.toNat) % 65536 := by
  rw [BitVec.toNat_add, BitVec.toNat_setWidth_of_le (by decide)]

/-- The font lies below 0x200 (R5), so that no glyph address wraps. -/
theorem glyphAddress_toNat (b : Byte) (s : State) :
    (glyphAddress b s).toNat = s.params.fontBase.val + 5 * b.toNat := by
  have hfont : s.params.fontBase.val < 433 := s.params.fontBase.isLt
  have hb : b.toNat < 256 := b.isLt
  rw [glyphAddress, BitVec.toNat_ofNat, Nat.mod_eq_of_lt (by omega)]

/-- Settles O30: each form's one write is to I. -/
theorem indexArithmetic : Obligations.IndexArithmetic := fun x s =>
  ⟨idxEffect_of_setIdx rfl (word_add_byte_toNat s.idx (s.reg x)),
    idxEffect_of_setIdx rfl (glyphAddress_toNat (s.reg x) s)⟩

/-! ### A transfer inside memory -/

/-- The k-th byte of a sequence of writes is at the k-th address. -/
theorem State.byteAt_pokeAll_getElem (s : State) (a : Nat) {bs : List Byte} {j : Nat} (h : j < bs.length) :
    (s.pokeAll a bs).byteAt (a + j) = bs[j] := by
  rw [State.byteAt_pokeAll, if_pos (by omega), Nat.add_sub_cancel_left, List.getD_eq_getElem _ _ h]

/-- `FX33` puts the hundreds, the tens and the ones at I, I + 1 and I + 2 (R242). -/
theorem State.byteAt_pokeAll_bcdDigits (s : State) (a : Nat) (b : Byte) :
    ((s.pokeAll a (bcdDigits b)).byteAt a).toNat = b.toNat / 100 ∧
    ((s.pokeAll a (bcdDigits b)).byteAt (a + 1)).toNat = b.toNat / 10 % 10 ∧
    ((s.pokeAll a (bcdDigits b)).byteAt (a + 2)).toNat = b.toNat % 10 := by
  have hb : b.toNat < 256 := b.isLt
  have hbyte : ∀ j (hj : j < 3), (s.pokeAll a (bcdDigits b)).byteAt (a + j) = (bcdDigits b)[j]'hj :=
    fun _ hj => s.byteAt_pokeAll_getElem a hj
  have hdigit : ∀ d < 256, (BitVec.ofNat 8 d).toNat = d := fun _ hd => Nat.mod_eq_of_lt hd
  exact ⟨(congrArg BitVec.toNat (hbyte 0 (by decide))).trans (hdigit _ (by omega)),
    (congrArg BitVec.toNat (hbyte 1 (by decide))).trans (hdigit _ (by omega)),
    (congrArg BitVec.toNat (hbyte 2 (by decide))).trans (hdigit _ (by omega))⟩

/-- Settles O44: the three digits are the only bytes written, and memory the only part. -/
theorem bcdStoresDigits : Obligations.BcdStoresDigits := by
  intro x s hI
  have hfit : memOperand s + 3 ≤ MEM_SIZE := by simp only [memOperand, MEM_SIZE]; omega
  obtain ⟨hundreds, tens, ones⟩ := s.byteAt_pokeAll_bcdDigits (memOperand s) (s.reg x)
  refine ⟨_, (execLdBVx_eq x s).trans (if_pos hfit), hundreds, tens, ones, fun a ha => ?others, ?pc, ?parts⟩
  case others =>
    refine State.byteAt_pokeAll_outside ?_
    rw [bcdDigits_length, memOperand]
    omega
  case pc => rw [State.advance_pc, State.pokeAll_pc]
  case parts => exact ((KeptBut.refl _ s).pokeAll List.mem_cons_self _ _).advance

/-- The one check of `FX55` and `FX65`, as the statements put it (R243, R244). -/
theorem transfer_fits_iff (x : RegIdx) (s : State) :
    memOperand s + (x.val + 1) ≤ MEM_SIZE ↔ s.idx.toNat + x.val ≤ 4095 := by
  simp only [memOperand, MEM_SIZE]
  omega

/-- Settles O45: V0..VX are written at I..I + X, and I is the only other part written. -/
theorem storeRegistersBlock : Obligations.StoreRegistersBlock := by
  intro x s hI
  refine ⟨_, (execStoreRegs_eq x s).trans (if_pos ((transfer_fits_iff x s).mpr hI)),
    fun r hr => State.byteAt_pokeAll_regRange hr _, fun a ha => ?others, idxAfterRange_toNat s x, ?pc, ?parts⟩
  case others =>
    refine State.byteAt_pokeAll_outside ?_
    rw [regRange_length, memOperand]
    omega
  case pc => rw [State.advance_pc, State.setIdx_pc, State.pokeAll_pc]
  case parts =>
    exact (((KeptBut.refl _ s).pokeAll List.mem_cons_self _ _).setIdx fun _ => by simp).advance

/-- Settles O46: the X + 1 bytes at I reach V0..VX, and I is the only other part written. -/
theorem loadRegistersBlock : Obligations.LoadRegistersBlock := by
  intro x s hI
  refine ⟨_, (execLoadRegs_eq x s).trans (if_pos ((transfer_fits_iff x s).mpr hI)),
    fun r hr => ?loaded, fun r hr => ?others, idxAfterRange_toNat s x, rfl, ?parts⟩
  case loaded =>
    rw [State.advance_reg, State.setIdx_reg, State.reg_setRegs,
      State.bytesAt_getD _ _ _ _ (Nat.lt_succ_of_le hr), memOperand]
  case others =>
    have hlen : (s.bytesAt (memOperand s) (x.val + 1)).length ≤ r.val := by
      rw [State.bytesAt_length]
      exact hr
    rw [State.advance_reg, State.setIdx_reg, State.reg_setRegs, List.getD_eq_default _ _ hlen]
  case parts =>
    exact (((KeptBut.refl _ s).setRegs List.mem_cons_self _).setIdx fun _ => by simp).advance

/-- Settles O48: what the load (O46) reads at I + k is what the store (O45) left there. -/
theorem storeThenLoadRestoresRegisters : Obligations.StoreThenLoadRestoresRegisters := by
  intro x s hI
  obtain ⟨t, ht, stored, -⟩ := storeRegistersBlock x s hI
  refine ⟨t, ht, fun u hmem hidx => ?_⟩
  obtain ⟨v, hv, loaded, -⟩ := loadRegistersBlock x u (by rw [hidx]; exact hI)
  refine ⟨v, hv, fun r hr => ?_⟩
  calc v.reg r = u.byteAt (s.idx.toNat + r.val) := hidx ▸ loaded r hr
    _ = t.byteAt (s.idx.toNat + r.val) := hmem _
    _ = s.reg r := stored r hr

/-! ### A transfer above memory -/

/-- An instruction to which the fault table gives a fault enters it with its word recorded (R301, R302). -/
theorem enteredFault_of_faultOf (hf : faultOf i s = some k) :
    ∃ t, exec i s = .next t ∧ EnteredFault s t k (some (encode i)) :=
  ⟨_, exec_of_faultOf hf, rfl, rfl, rfl⟩

/-- The word FXNN of group F is 0xF0NN with X in its third digit (R81). -/
theorem wordXNN_groupF (x : RegIdx) (nn : Byte) :
    wordXNN 0xF x nn = BitVec.ofNat 16 (0xF000 + nn.toNat + x.val * 256) := by
  have hnn : nn.toNat < 256 := nn.isLt
  have hop : (0xF : Nibble).toNat = 15 := rfl
  apply BitVec.eq_of_toNat_eq
  rw [wordXNN_toNat, hop, BitVec.toNat_ofNat, Nat.mod_eq_of_lt (by omega)]
  omega

/-- Settles O47: above 4095 the fault table gives each form the greater of I and 4096, and the entry of the
fault records the form's own word. -/
theorem transfersFaultAboveMemory : Obligations.TransfersFaultAboveMemory := by
  intro x s
  have hbcd : encode (.ldBVx x) = BitVec.ofNat 16 (0xF033 + x.val * 256) := wordXNN_groupF x 0x33
  have hstore : encode (.storeRegs x) = BitVec.ofNat 16 (0xF055 + x.val * 256) := wordXNN_groupF x 0x55
  have hload : encode (.loadRegs x) = BitVec.ofNat 16 (0xF065 + x.val * 256) := wordXNN_groupF x 0x65
  rw [← hbcd, ← hstore, ← hload]
  exact ⟨fun hI => enteredFault_of_faultOf (if_pos hI), fun hI => enteredFault_of_faultOf (if_pos hI),
    fun hI => enteredFault_of_faultOf (if_pos hI)⟩

end Sys2Proof.Machine
end

section
/-! PROOFS. The statements of spec/70_reset_and_hazards.md: the state after construction (O1), which meets the
invariant (O55), and the loading of a program (O3). -/

namespace Sys2Proof.Machine

variable {b : List Byte}

/-! ### Construction -/

/-- The reset contents are the font's bytes in the font table (R331). -/
theorem resetByte_in_font (p : Params) {j : Nat} (h : j < 80) :
    resetByte p (p.fontBase.val + j) = p.fontData[j] := by
  have hin : p.fontBase.val ≤ p.fontBase.val + j ∧ p.fontBase.val + j < p.fontBase.val + FONT_SIZE :=
    ⟨Nat.le_add_right _ _, Nat.add_lt_add_left h _⟩
  rw [resetByte, if_pos hin, Nat.add_sub_cancel_left, List.getD_eq_getElem _ _ (by simpa using h),
    Vector.getElem_toList]

/-- Settles O1: memory reads as its reset contents, and the other values are those that construction writes. -/
theorem constructedStateValues : Obligations.ConstructedStateValues := fun p =>
  ⟨fun _ hj => resetByte_in_font p hj, fun _ ha => resetByte_outside_font p ha, Vector.get_replicate 16 0,
    rfl, rfl, rfl, rfl, rfl, Display.pixel_clear, Vector.get_replicate 16 false, Vector.get_replicate 16 false,
    rfl, rfl, rfl⟩

/-- Settles O55: construction meets the invariant for all parameters, the defaults of reset among them. -/
theorem constructedStateMeetsInv : Obligations.ConstructedStateMeetsInv :=
  ⟨construct_inv, construct_inv defaultParams⟩

/-! ### Load -/

theorem load_of_fits (s : State) (h : b.length ≤ PROG_MAX) : load b s = .next (s.pokeAll PROG_BASE b) :=
  if_neg h.not_gt

theorem load_of_too_long (s : State) (h : b.length > PROG_MAX) :
    load b s = .fault (.programTooLarge b.length) :=
  if_pos h

/-- The transaction leaves what the call answers, or the state as it was when the program is too long (R307). -/
theorem transact_load (b : List Byte) (s : State) :
    transact (.load b) s =
      if b.length ≤ PROG_MAX then (s.pokeAll PROG_BASE b, .ok)
      else (s, .failed (.programTooLarge b.length)) := by
  split
  next h => simp only [transact, load_of_fits s h]
  next h => simp only [transact, load_of_too_long s (not_le.mp h)]

/-- Settles O3: past its check `load` is a sequence of writes at 0x200, and before it nothing is written. -/
theorem loadCopiesProgram : Obligations.LoadCopiesProgram := by
  refine fun b s => ⟨fun hfits => ?copied, fun hlong => ?rejected⟩
  case copied =>
    refine ⟨_, load_of_fits s hfits, (transact_load b s).trans (if_pos hfits),
      fun j hj => State.byteAt_pokeAll_getElem s _ hj, fun a ha => ?others, State.pokeAll_pc .., ?parts⟩
    case others =>
      refine State.byteAt_pokeAll_outside ?_
      simp only [PROG_BASE]
      omega
    case parts => exact (KeptBut.refl _ s).pokeAll List.mem_cons_self _ _
  case rejected => exact ⟨load_of_too_long s hlong, (transact_load b s).trans (if_neg hlong.not_ge)⟩

end Sys2Proof.Machine
end

section
/-! PROOFS. The statements of spec/60_exceptions.md: every step answers a next state (O11), the fault table
(O14), what the entry of a fault changes (O12), and that mode Faulted is final (O13). -/

namespace Sys2Proof.Machine

variable {i : Instr} {s t : State}

/-! ### Every step answers a next state -/

theorem complete_answers_next (i : Instr) (s : State) (r : Except FaultKind State) :
    ∃ t, complete i s r = .next t := by
  rcases complete_cases i s r with ⟨t, -, h⟩ | ⟨k, -, h⟩
  · exact ⟨t, h⟩
  · exact ⟨_, h⟩

theorem exec_answers_next (i : Instr) (s : State) : ∃ t, exec i s = .next t := by
  cases i with
  | ret | call nnn | drw x y n | ldBVx x | storeRegs x | loadRegs x => exact complete_answers_next _ s _
  | _ => exact ⟨_, rfl⟩

theorem waitStep_answers_next (x : RegIdx) (s : State) : ∃ t, waitStep x s = .next t := by
  rcases waitStep_cases x s with ⟨-, h⟩ | ⟨k, -, h⟩
  · exact ⟨s, h⟩
  · exact ⟨_, h⟩

/-- Settles O11, by the cases of a step: a fault is entered as a next state (R302). -/
theorem everyStepAnswersNext : Obligations.EveryStepAnswersNext := by
  intro s
  rcases step_cases s with ⟨-, h⟩ | ⟨x, -, h⟩ | ⟨-, -, h⟩ | ⟨-, -, w, h⟩ | ⟨-, -, i, h⟩
  · exact ⟨s, h⟩
  · exact h ▸ waitStep_answers_next x s
  · exact ⟨_, h⟩
  · exact ⟨_, h⟩
  · exact h ▸ exec_answers_next i s

/-! ### The fault table -/

/-- Only `FX0A` writes the mode when it raises no fault (R204). -/
theorem modeAndFault_not_written (s : State) (h : ∀ x, i ≠ .ldVxK x) : .modeAndFault ∉ writtenParts i s := by
  cases i with
  | ldVxK x => exact absurd rfl (h x)
  | storeRegs x | loadRegs x | skp x | sknp x => simp only [writtenParts]; split <;> simp
  | _ => simp [writtenParts]

/-- An instruction that raises no fault keeps the fault record, and the mode too but for `FX0A` (R301). -/
theorem exec_mode_of_no_fault (hf : faultOf i s = none) (h : exec i s = .next t) :
    t.fault = s.fault ∧ (t.mode = s.mode ∨ ∃ x, i = .ldVxK x ∧ t.mode = .waitingForKey x) := by
  by_cases hk : ∃ x, i = .ldVxK x
  · obtain ⟨x, rfl⟩ := hk
    obtain rfl := Host.Outcome.next.inj h
    exact ⟨rfl, .inr ⟨x, rfl, rfl⟩⟩
  · obtain ⟨-, kept⟩ := onlyNamedPartsWritten i s t hf h
    obtain ⟨hmode, hfault⟩ := kept .modeAndFault (modeAndFault_not_written s (not_exists.mp hk))
    exact ⟨hfault, .inl hmode⟩

/-- Settles O14: in a listed case the instruction enters the listed fault, and in every other case it
answers a next state in which no fault is entered. -/
theorem faultTableExactly : Obligations.FaultTableExactly := by
  refine fun i s => ⟨fun k => enteredFault_of_faultOf, fun hf => ?_⟩
  obtain ⟨t, h⟩ := exec_answers_next i s
  exact ⟨t, h, exec_mode_of_no_fault hf h⟩

/-! ### The entry of a fault -/

/-- An instruction that ends in mode Faulted has entered its fault and done nothing else (R302, R305). -/
theorem eq_enterFault_of_exec (hm : s.mode ≠ .faulted) (h : exec i s = .next t) (ht : t.mode = .faulted) :
    ∃ k word, t = s.enterFault k word := by
  rcases exec_cases h with ⟨k, -, rfl⟩ | hf
  · exact ⟨k, _, rfl⟩
  · obtain ⟨-, hmode | ⟨x, -, hmode⟩⟩ := exec_mode_of_no_fault hf h
    · exact absurd (hmode.symm.trans ht) hm
    · cases hmode.symm.trans ht

/-- A waiting step never ends in mode Faulted (R206). -/
theorem waitStep_not_faulted {x : RegIdx} (hm : s.mode ≠ .faulted) (h : waitStep x s = .next t) :
    t.mode ≠ .faulted := by
  rcases waitStep_cases x s with ⟨-, hw⟩ | ⟨k, -, hw⟩
  · obtain rfl := Host.Outcome.next.inj (hw.symm.trans h)
    exact hm
  · obtain rfl := Host.Outcome.next.inj (hw.symm.trans h)
    exact nofun

/-- A step that enters mode Faulted does that and nothing else (R302, R303, R305). -/
theorem eq_enterFault_of_step (hm : s.mode ≠ .faulted) (h : step s = .next t) (ht : t.mode = .faulted) :
    ∃ k word, t = s.enterFault k word := by
  rcases step_cases s with ⟨hs, -⟩ | ⟨x, -, he⟩ | ⟨-, -, he⟩ | ⟨-, -, w, he⟩ | ⟨-, -, i, he⟩
  · exact absurd hs hm
  · exact absurd ht (waitStep_not_faulted hm (he.symm.trans h))
  · exact ⟨_, _, Host.Outcome.next.inj (h.symm.trans he)⟩
  · exact ⟨_, _, Host.Outcome.next.inj (h.symm.trans he)⟩
  · exact eq_enterFault_of_exec hm (he.symm.trans h) ht

/-- Settles O12: the step's one write is the entry of the fault, whose record is the step's result. -/
theorem faultingStepChangesNothingElse : Obligations.FaultingStepChangesNothingElse := by
  intro s t hm h ht
  obtain ⟨k, word, rfl⟩ := eq_enterFault_of_step hm h ht
  exact ⟨k, word, rfl, rfl⟩

/-! ### Mode Faulted is final -/

theorem stepResult_of_faulted (hm : s.mode = .faulted) : stepResult s = s.fault := by
  simp only [stepResult, hm]

/-- No transaction leaves mode Faulted or changes the record (R306). -/
theorem transact_of_faulted (a : Transaction) (hm : s.mode = .faulted) :
    (transact a s).1.mode = .faulted ∧ (transact a s).1.fault = s.fault := by
  cases a with
  | step =>
    rw [transact_step_of_next (step_of_faulted hm)]
    exact ⟨hm, rfl⟩
  | load bytes =>
    rw [transact_load]
    split
    · exact ⟨(State.pokeAll_mode ..).trans hm, State.pokeAll_fault ..⟩
    · exact ⟨hm, rfl⟩
  | tickTimers | setKeyState k p | displaySnapshot | soundTimerActive => exact ⟨hm, rfl⟩

theorem runHost_of_faulted (as : List Transaction) (hm : s.mode = .faulted) :
    (runHost as s).mode = .faulted ∧ (runHost as s).fault = s.fault := by
  induction as generalizing s with
  | nil => exact ⟨hm, rfl⟩
  | cons a rest ih =>
    obtain ⟨hmode, hfault⟩ := transact_of_faulted a hm
    obtain ⟨hmode', hfault'⟩ := ih hmode
    exact ⟨hmode', hfault'.trans hfault⟩

/-- Settles O13, by induction on the host's transactions, none of which leaves mode Faulted. -/
theorem faultedModeIsFinal : Obligations.FaultedModeIsFinal := fun _ hm =>
  ⟨step_of_faulted hm, stepResult_of_faulted hm, fun as => runHost_of_faulted as hm⟩

end Sys2Proof.Machine
end
